-- ==== Sys2Proof/Word.lean ====
section
/-! DEFINITION. The word types of the block (00_scope.md rules R8 and R9): bytes, the 32-bit accumulator of
`EXPAND`, host addresses. No value of the block is signed (R9), and all arithmetic wraps (R120): that is `BitVec`'s. -/

namespace Sys2Proof

/-- A byte, 0 to 255 (R9). -/
abbrev Byte := BitVec 8

/-- A word32, 0 to 2^32 - 1 (R9): only the accumulator `n` of `EXPAND` has this width. -/
abbrev Word32 := BitVec 32

/-- A host window address (R70: 16-bit byte addresses). -/
abbrev Addr := BitVec 16

end Sys2Proof
end

