-- ==== Sys2Proof/Config.lean ====
section
/-! DEFINITION. The implementation parameters of 00_scope.md rule R7, as plain data, with the spec's defaults.
"The model takes the following parameters as arguments" (R7): a `Params` value stands in `State.params`, no step
changes it, and every statement about an arbitrary state is a statement about every choice of parameters.
An `opened n` choice is an uninterpreted instantiation: constants with no body, about which nothing can be proved
but what its type says (log entries 1 to 4). -/

namespace Sys2Proof

/-- The 16-byte constant table of an instantiation of `HASH16` that the spec does not give (R130, property (c)). -/
opaque Config.openHashTable : Nat → Vector Byte 16

/-- One input position of an instantiation of `HASH16` that the spec does not give (R130, property (d)): at a position
holding a byte, the 16 slots become 16 new ones. -/
opaque Config.openHashUpdate : Nat → Nat → Byte → Vector Byte 16 → Vector Byte 16

/-- An instantiation of the rotation patterns `ROT[1]` to `ROT[6]` that the spec does not give (R170, D8): for each
pattern number a bijection on bytes; the inverse of that bijection is `UNROT` (R171). -/
opaque Config.openRot : Nat → BitVec 3 → Equiv.Perm Byte

/-- An instantiation of `LAT` that the spec does not give (R241, D26): how many cycles BEYOND THE FIRST pass from the issue of
a command byte, under a value of `LEN`, to its completion. `LAT` = this + 1, so it is finite and at least 1. -/
opaque Config.openExtraLatency : Nat → Byte → Nat → Nat

/-- The parameter `HASH16` of R7: the default `H16REF` of R131, or any other single pass over 16 byte slots. -/
inductive HashParam where
  | h16ref
  | opened (n : Nat)
  deriving DecidableEq, Repr

/-- The parameters `ROT[1..6]` of R7: the defaults of R170, or any other family of byte bijections. -/
inductive RotParam where
  | defaults
  | opened (n : Nat)
  deriving DecidableEq, Repr

/-- The parameter `LAT` of R7: the same `extra + 1` cycles for every command, or any other function of the command byte
and `LEN`. -/
inductive LatParam where
  | uniform (extra : Nat)
  | opened (n : Nat)
  deriving DecidableEq, Repr

/-- `LAT - 1` for command byte `c` under length `len` (R241). -/
def LatParam.extra (l : LatParam) (c : Byte) (len : Nat) : Nat :=
  match l with
  | .uniform e => e
  | .opened n => Config.openExtraLatency n c len

/-- The parameters of R7. -/
structure Params where
  /-- `BUF_SIZE`, bytes in the payload buffer; legal from 1 to 61440 (R7, R50, D14; `Params.wf`). -/
  bufSize : Nat
  /-- `HASH16` (R130). -/
  hash : HashParam
  /-- `ROT[1..6]` (R170). -/
  rot : RotParam
  /-- `LAT` (R241). -/
  lat : LatParam
  deriving DecidableEq, Repr

/-- The defaults of R7. R7 gives `LAT` no default: one cycle for every command is the model's DESIGN CHOICE for the reset
state (log entry 4); no statement rests on it. -/
def Params.defaults : Params :=
  { bufSize := 4096, hash := .h16ref, rot := .defaults, lat := .uniform 0 }

/-- The constant of the read-only register `ID` (R33). -/
def Config.idValue : Byte := 0x53

/-- The constant of the read-only register `VER` (R33). -/
def Config.verValue : Byte := 0x01

end Sys2Proof
end

