-- ==== Sys2Proof/Syntax.lean ====
section
/-! DEFINITION. The commands of the set `SB32-CORE` (30_encoding.md rule R92), one constructor for each row of
spec/opcode_table.json. No command has an immediate, a register field or an address field (R91). -/

namespace Sys2Proof

/-- The ten legal commands (R92). -/
inductive Instr where
  /-- `NOP`, byte 0x00 (R115). -/
  | nop
  /-- `HASH16A`, byte 0x01 (R134). -/
  | hash16a
  /-- `HASH16B`, byte 0x11 (R135). -/
  | hash16b
  /-- `MKPKEY`, byte 0x02 (R136). -/
  | mkpkey
  /-- `DERIVE`, byte 0x03 (R137). -/
  | derive
  /-- `EXPAND`, byte 0x04 (R150). -/
  | expand
  /-- `STEPTAG`, byte 0x05 (R160). -/
  | steptag
  /-- `MIXTABLE`, byte 0x06 (R173). -/
  | mixtable
  /-- `ENCRYPT`, byte 0x07 (R174). -/
  | encrypt
  /-- `DECRYPT`, byte 0x17 (R175). -/
  | decrypt
  deriving DecidableEq, Repr

end Sys2Proof
end

