-- ==== Sys2Proof/WellFormed.lean ====
section
/-! DEFINITION. What makes the model's inputs well formed. -/

namespace Sys2Proof

/-- Every command is well formed: it has no operand field that could hold an illegal value (R91). -/
def Instr.wf (i : Instr) : Bool :=
  match i with
  | .nop | .hash16a | .hash16b | .mkpkey | .derive | .expand | .steptag | .mixtable | .encrypt | .decrypt => true

/-- The legal parameter values of R7: `BUF_SIZE` is 1 to 61440 (0xF000). The other legality conditions of R7 (`HASH16` total,
`ROT[1..6]` bijections, `LAT` finite and at least 1) hold by the types of Config.lean. -/
def Params.wf (p : Params) : Bool := decide (1 ≤ p.bufSize) && decide (p.bufSize ≤ 61440)

end Sys2Proof
end

