-- ==== Sys2Proof/Decode.lean ====
section
/-! DEFINITION. The command byte (30_encoding.md rules R90 to R95): its fields, a decoder that is total on every byte and
rejects by name, and the encoder. The transaction words of R97, which the block itself never decodes, are in
Machine/HostProgram.lean. -/

namespace Sys2Proof

/-- `OP = CMD[3:0]` (R90). -/
def opField (c : Byte) : BitVec 4 := c.extractLsb' 0 4

/-- `M = CMD[4]` (R90). -/
def modeBit (c : Byte) : Bool := c.getLsbD 4

/-- `RSV = CMD[7:5]` (R90). -/
def rsvField (c : Byte) : BitVec 3 := c.extractLsb' 5 3

/-- Why a byte is no command: the three groups of the 246 illegal bytes of R94. All of them behave identically. -/
inductive DecodeError where
  /-- `RSV` is not 000 (224 bytes). -/
  | reservedBits
  /-- `RSV` is 000 and `OP` is 8 to 15 (16 bytes). -/
  | reservedOp
  /-- `RSV` is 000, `M` is 1 and `OP` is 0, 2, 3, 4, 5 or 6 (6 bytes). -/
  | reservedMode
  deriving DecidableEq, Repr

/-- The decoder (R90, R92, R94). -/
def decode (c : Byte) : Except DecodeError Instr :=
  if rsvField c ≠ 0 then .error .reservedBits
  else
    match (opField c).toNat, modeBit c with
    | 0, false => .ok .nop
    | 1, false => .ok .hash16a
    | 1, true => .ok .hash16b
    | 2, false => .ok .mkpkey
    | 3, false => .ok .derive
    | 4, false => .ok .expand
    | 5, false => .ok .steptag
    | 6, false => .ok .mixtable
    | 7, false => .ok .encrypt
    | 7, true => .ok .decrypt
    | 0, true | 2, true | 3, true | 4, true | 5, true | 6, true => .error .reservedMode
    | _, _ => .error .reservedOp

/-- A command byte from its fields: `RSV` = 000, then `M`, then `OP` (R90). -/
def commandByte (m : Bool) (op : BitVec 4) : Byte := 0#3 ++ BitVec.ofBool m ++ op

/-- The encoder: the columns OP and M of the table of R92. -/
def encode (i : Instr) : Byte :=
  match i with
  | .nop => commandByte false 0
  | .hash16a => commandByte false 1
  | .hash16b => commandByte true 1
  | .mkpkey => commandByte false 2
  | .derive => commandByte false 3
  | .expand => commandByte false 4
  | .steptag => commandByte false 5
  | .mixtable => commandByte false 6
  | .encrypt => commandByte false 7
  | .decrypt => commandByte true 7

/-- The first `nbits` bits of `w` as the one byte a command is (R95: "A decoder needs exactly one byte"); the bits above are 0. -/
def tableByte (nbits w : Nat) : Byte := BitVec.ofNat 8 (w % 2 ^ nbits)

/-- The command the decoder reads from an opcode-table word: none where it refuses. -/
def decodeTableWord (nbits w : Nat) : Option Instr :=
  match decode (tableByte nbits w) with
  | .ok i => some i
  | .error _ => none

end Sys2Proof
end

