-- ==== Sys2Proof/Machine/Bus.lean ====
section
/-! DEFINITION. What the host can do in one step of its program (20_memory.md rules R70 and R71, 30_encoding.md rules R96 and
R98): the two bus accesses, the polling loop `WAIT`, and doing nothing. -/

namespace Sys2Proof.Machine

/-- One pending operation of the host. Only byte accesses exist (R71). -/
inductive HostOp where
  /-- `RD a`: `MemRead(a, 1)`; the value goes to `State.replies`. -/
  | read (a : Addr)
  /-- `WR a, v`: `MemWrite(a, 1, v)`. -/
  | write (a : Addr) (v : Byte)
  /-- `WAIT`: repeat `RD 0x0003` until bit 0 (`BUSY`) of the value read is 0 (R98). -/
  | wait
  /-- The host makes no access in this step. -/
  | idle
  deriving DecidableEq, Repr

end Sys2Proof.Machine
end

