-- ==== Sys2Proof/Machine/State.lean ====
section
/-! DEFINITION. The state of the block (10_state.md rules R30 to R63), as plain data, and the reasons a step could stop. -/

namespace Sys2Proof.Machine

/-- Why the machine would stop with a fault: never. "The block raises no other error. Its arithmetic cannot fault", "Its
host accesses cannot fault" (R193), and the two command errors of R190 are recorded in `STATUS` by a NEXT state (R198: no
trap). The type therefore has no constructor, so a fault of this machine cannot even be written down (safe). -/
inductive Fault where
  deriving DecidableEq, Repr

/-- Why the machine would refuse an instruction. -/
inductive Refusal where
  /-- Raised only by an arm of `exec` whose command has no meaning in the model yet (safe). Every command has its
  meaning, so nothing raises it. -/
  | notModelled (mnemonic : String)
  deriving DecidableEq, Repr

/-- The command errors of R190. -/
inductive CmdError where
  /-- Code 1: the `CMD` byte is none of the ten legal bytes (R191). -/
  | illegalCmd
  /-- Code 2: `LEN > BUF_SIZE` for a command that reads `LEN` (R192). -/
  | lenRange
  deriving DecidableEq, Repr

/-- The stored fields of `STATUS` (R35). `BUSY` is 1 exactly while a command is in flight, so it is not stored a second time:
`State.busy` computes it. The reserved bits 7:6 read 0 and have no storage (S5). -/
structure Status where
  /-- `DONE`, bit 1. -/
  done : Bool
  /-- `ERR`, bit 2. -/
  err : Bool
  /-- `ERRCODE`, bits 5:3. -/
  errcode : BitVec 3
  deriving DecidableEq, Repr

/-- A command in flight (R60, R110). The byte is "taken at the moment of that write" to `CMD` (R82). The other working values of
R60 live and die inside the one step that performs the command (R112), so they are local values of its meaning. -/
structure Flight where
  /-- The command byte the engine started. -/
  byte : Byte
  /-- How many more cycles pass before the cycle that performs and completes the command (R241). -/
  left : Nat
  deriving DecidableEq, Repr

/-- The state of the block, with the host's pending work and the reset input beside it.
`ID` and `VER` are constants (R33), answered by `State.windowRead`; `irq` has no state of its own (R62), see `State.irq`. -/
structure State where
  /-- The implementation parameters (R7); no step changes them. -/
  params : Params
  /-- `CMD` (R34): the last byte written. -/
  cmd : Byte
  /-- `STATUS` (R35), without `BUSY`. -/
  status : Status
  /-- `CTRL.IE` (R36): the only stored bit of `CTRL`. -/
  ie : Bool
  /-- `STATE` (R37): the round state. -/
  roundState : Byte
  /-- `TAG` (R38). -/
  tag : Byte
  /-- `LEN_LO` (R39), bits 7:0 of `LEN`. -/
  lenLo : Byte
  /-- `LEN_HI` (R39), bits 15:8 of `LEN`. -/
  lenHi : Byte
  /-- The byte memories `HA`, `HB`, `PKEY`, `PUB`, `SK32`, `TBL` and `BUF` (R40 to R44, R50), as (host address, byte) pairs with
  strictly rising addresses and no byte equal to `Memory.unlisted` (`Memory.wf`); the addresses are those of R72. -/
  mem : List Host.Cell
  /-- The hidden engine state of R30 and R60: the command in flight, if there is one. -/
  flight : Option Flight
  /-- The MODEL's own field: what the host still has to do, in program order (R79). -/
  bus : List HostOp
  /-- The MODEL's own field: the level of the reset input (R220) in each coming step; false where the list has ended. -/
  resetIn : List Bool
  /-- The MODEL's own field: the values the host's reads have returned, newest first (R73). -/
  replies : List Byte
  deriving DecidableEq, Repr

/-- The block right after reset (R63), with the default parameters (R7) and nothing for the host to do. -/
def State.reset : State :=
  { params := Params.defaults
    cmd := 0x00
    status := { done := false, err := false, errcode := 0 }
    ie := false
    roundState := 0x00
    tag := 0x00
    lenLo := 0x00
    lenHi := 0x00
    mem := []
    flight := none
    bus := []
    resetIn := []
    replies := [] }

end Sys2Proof.Machine
end

