-- ==== Sys2Proof/Machine/Ops.lean ====
section
/-! DEFINITION. The named operations over memory and registers: the sparse byte memory, the map of the host window (20_memory.md
rule R72), the shared byte primitives (00_scope.md rule R10, 40_common.md rules R116 to R119, 44_permutation_engine.md rules R170
and R171), the completion of a command with or without a command error (R113), and the reset action (R220). -/

namespace Sys2Proof.Machine

/-! ### Sparse memory -/

/-- What a byte that nothing has written reads as: the spec's reset contents of every byte memory (R63). -/
def Memory.unlisted : Byte := 0x00

/-- The byte at address `k`. -/
def Memory.read (m : List Host.Cell) (k : Nat) : Byte :=
  match m with
  | [] => Memory.unlisted
  | (a, b) :: rest => if k = a then b else Memory.read rest k

/-- Store `v` at address `k`, keeping the canonical form. -/
def Memory.write (m : List Host.Cell) (k : Nat) (v : Byte) : List Host.Cell :=
  match m with
  | [] => if v = Memory.unlisted then [] else [(k, v)]
  | (a, b) :: rest =>
    if k < a then (if v = Memory.unlisted then (a, b) :: rest else (k, v) :: (a, b) :: rest)
    else if k = a then (if v = Memory.unlisted then rest else (k, v) :: rest)
    else (a, b) :: Memory.write rest k v

/-- The canonical form: addresses strictly rising, and no listed byte equal to what an unlisted address reads as. -/
abbrev Memory.wf (m : List Host.Cell) : Prop :=
  m.Pairwise (fun x y => x.1 < y.1) ∧ ∀ c ∈ m, c.2 ≠ Memory.unlisted

/-- The `n` bytes from address `k` on, lowest first. -/
def Memory.readBlock (m : List Host.Cell) (k n : Nat) : List Byte :=
  match n with
  | 0 => []
  | n + 1 => Memory.read m k :: Memory.readBlock m (k + 1) n

/-- Store the bytes `bs` from address `k` on, lowest first. -/
def Memory.writeBlock (m : List Host.Cell) (k : Nat) (bs : List Byte) : List Host.Cell :=
  match bs with
  | [] => m
  | b :: rest => Memory.writeBlock (Memory.write m k b) (k + 1) rest

/-! ### The host window (R72) -/

/-- A run of byte addresses of the host window. -/
structure Region where
  base : Nat
  size : Nat
  deriving DecidableEq, Repr

/-- Does the region hold address `k`? -/
def Region.holds (r : Region) (k : Nat) : Bool := decide (r.base ≤ k) && decide (k < r.base + r.size)

/-- `HA[0..16]` at 0x0010 (R44, R72). -/
def haRegion : Region := { base := 0x0010, size := 16 }
/-- `HB[0..16]` at 0x0020 (R44, R72). -/
def hbRegion : Region := { base := 0x0020, size := 16 }
/-- `PKEY[0..32]` at 0x0040 (R40, R72). -/
def pkeyRegion : Region := { base := 0x0040, size := 32 }
/-- `PUB[0..32]` at 0x0060 (R41, R72). -/
def pubRegion : Region := { base := 0x0060, size := 32 }
/-- `SK32[0..32]` at 0x0080 (R42, R72). -/
def sk32Region : Region := { base := 0x0080, size := 32 }
/-- `TBL[0..256]` at 0x0100 (R43, R72). -/
def tblRegion : Region := { base := 0x0100, size := 256 }
/-- The first `n` bytes of `BUF` at 0x1000 (R50, R72): `BUF[0..BUF_SIZE]` is `bufRegion BUF_SIZE`. -/
def bufRegion (n : Nat) : Region := { base := 0x1000, size := n }

/-- All the byte memories of R72 for a given `BUF_SIZE`. -/
def storageRegions (bufSize : Nat) : List Region :=
  [haRegion, hbRegion, pkeyRegion, pubRegion, sk32Region, tblRegion, bufRegion bufSize]

/-- Is address `k` a byte of one of the byte memories? -/
def isStorage (bufSize k : Nat) : Bool := (storageRegions bufSize).any (fun r => r.holds k)

/-- What stands at an address of the host window (R72). -/
inductive Place where
  | id | ver | cmd | status | ctrl | roundState | tag | lenLo | lenHi
  | storage
  | reserved
  deriving DecidableEq, Repr

/-- The address map of R72. -/
def placeOf (bufSize : Nat) (a : Addr) : Place :=
  match a.toNat with
  | 0x0000 => .id
  | 0x0001 => .ver
  | 0x0002 => .cmd
  | 0x0003 => .status
  | 0x0004 => .ctrl
  | 0x0005 => .roundState
  | 0x0006 => .tag
  | 0x0008 => .lenLo
  | 0x0009 => .lenHi
  | k => if isStorage bufSize k then .storage else .reserved

/-! ### Byte primitives -/

/-- `NOT8(a)` (R10). -/
def not8 (a : Byte) : Byte := ~~~a

/-- `even(i)` (R10). -/
def isEven (i : Nat) : Bool := i % 2 == 0

/-- Bit 0 of a byte: the parity that R150, R160, R173 and R174 test. -/
def lowBit (b : Byte) : Bool := b.getLsbD 0

/-- `rotl8(a, k)` for `k` in 0..8 (R10). -/
def rotl8 (a : Byte) (k : Nat) : Byte := if k = 0 then a else (a <<< k) ||| (a >>> (8 - k))

/-- `popcount8(a)`: the number of set bits (R10, R119). -/
def popcount8 (a : Byte) : Nat := (List.range 8).countP (fun k => a.getLsbD k)

/-- `swap2(y)`: adjacent bits exchanged (R170). -/
def swap2 (y : Byte) : Byte := ((y &&& 0x55) <<< 1) ||| ((y &&& 0xAA) >>> 1)

/-- `mixI(i, a, b)` (R117). -/
def mixI (i : Nat) (a b : Byte) : Byte := if isEven i then not8 (a ^^^ b) else a ^^^ b

/-- `T[idx]` of a byte array. Every index a command uses is in range (R123), so the default is never read. -/
def byteAt (t : List Byte) (idx : Nat) : Byte := t.getD idx 0

/-- `byteMix(T, idx, v)` (R116). -/
def byteMix (t : List Byte) (idx : Nat) (v : Byte) : Byte :=
  if isEven idx then not8 (v ^^^ byteAt t idx) else v ^^^ byteAt t idx

/-- The default rotation patterns of R170. -/
def rotDefault (p : BitVec 3) (x : Byte) : Byte :=
  match p.toNat with
  | 0 => x
  | 1 => swap2 (rotl8 x 2)
  | 2 => rotl8 x 1
  | 3 => rotl8 x 4
  | 4 => rotl8 x 5
  | 5 => rotl8 x 6
  | 6 => rotl8 x 7
  | _ => rotl8 x 3

/-- The inverses of the default patterns (R171). -/
def unrotDefault (p : BitVec 3) (y : Byte) : Byte :=
  match p.toNat with
  | 0 => y
  | 1 => rotl8 (swap2 y) 6
  | 2 => rotl8 y 7
  | 3 => rotl8 y 4
  | 4 => rotl8 y 3
  | 5 => rotl8 y 2
  | 6 => rotl8 y 1
  | _ => rotl8 y 5

/-- `ROT[p](x)` (R170): patterns 0 and 7 are fixed by the source, 1 to 6 are the parameter. -/
def rot (r : RotParam) (p : BitVec 3) (x : Byte) : Byte :=
  if p = 0 then x
  else if p = 7 then rotl8 x 3
  else
    match r with
    | .defaults => rotDefault p x
    | .opened n => Config.openRot n p x

/-- `UNROT[p](y)` (R171): the inverse of `ROT[p]`. -/
def unrot (r : RotParam) (p : BitVec 3) (y : Byte) : Byte :=
  if p = 0 then y
  else if p = 7 then rotl8 y 5
  else
    match r with
    | .defaults => unrotDefault p y
    | .opened n => (Config.openRot n p).symm y

/-- The pattern a round state selects: `state & 7` (R170, 90_conflicts.md C4). -/
def pattern (s : Byte) : BitVec 3 := s.extractLsb' 0 3

/-! ### Completion and reset -/

/-- The code of a command error in `STATUS.ERRCODE` (R190). -/
def CmdError.code (e : CmdError) : BitVec 3 :=
  match e with
  | .illegalCmd => 1
  | .lenRange => 2

/-- What a raised error records in `STATUS` (R113). -/
def Status.recordError (st : Status) (e : CmdError) : Status := { st with err := true, errcode := e.code }

/-- Complete the command in flight without an error (R113): `DONE` becomes 1 and `BUSY` becomes 0. -/
def State.complete (s : State) : State :=
  { s with status := { s.status with done := true }, flight := none }

/-- THE BLOCK'S EXCEPTION ENTRY: complete the command in flight with `CmdError(e)` (R113, R114, R198). No state is saved and
nothing vectors: `ERR` and `ERRCODE` record the error, `DONE` becomes 1, `BUSY` becomes 0, and nothing else changes. -/
def State.completeWithError (s : State) (e : CmdError) : State :=
  State.complete { s with status := s.status.recordError e }

/-- THE RETURN FROM AN ERROR (R199): a host write of `v` to `STATUS` (R35). `v[1]` clears `DONE`; `v[2]` clears `ERR` and
`ERRCODE`; the other bits of `v` are ignored. -/
def State.clearFlags (s : State) (v : Byte) : State :=
  { s with status :=
    { done := s.status.done && !v.getLsbD 1
      err := s.status.err && !v.getLsbD 2
      errcode := if v.getLsbD 2 then 0 else s.status.errcode } }

/-- The action of a hardware or soft reset (R220, R221): every register and memory takes its reset value, and a command in
flight is gone without completing. The parameters are not state of the block (R7), and the host's pending work, the level
of the reset input and the values already returned to the host lie outside it. -/
def State.afterReset (s : State) : State :=
  { State.reset with params := s.params, bus := s.bus, resetIn := s.resetIn, replies := s.replies }

end Sys2Proof.Machine
end

