-- ==== Sys2Proof/Machine/Operands.lean ====
section
/-! DEFINITION. The operands of the commands. All are implicit: fixed registers and byte memories (30_encoding.md rule R91, 10_state.md
rule R61), reached by name (20_memory.md rule R70). -/

namespace Sys2Proof.Machine

/-- `LEN = {LEN_HI, LEN_LO}` (R39, R77). -/
def State.len (s : State) : Nat := (s.lenHi ++ s.lenLo).toNat

/-- The bytes of a region, lowest address first. -/
def State.bytes (s : State) (r : Region) : List Byte := Memory.readBlock s.mem r.base r.size

/-- Store bytes into a region, from its first address on. -/
def State.setBytes (s : State) (r : Region) (bs : List Byte) : State :=
  { s with mem := Memory.writeBlock s.mem r.base bs }

/-- One byte of the byte memories, by its host address. -/
def State.byte (s : State) (k : Nat) : Byte := Memory.read s.mem k

/-- Store one byte of the byte memories. -/
def State.setByte (s : State) (k : Nat) (v : Byte) : State := { s with mem := Memory.write s.mem k v }

/-- Write the round state register `STATE` (R37). -/
def State.setRoundState (s : State) (v : Byte) : State := { s with roundState := v }

/-- Write the register `TAG` (R38). -/
def State.setTag (s : State) (v : Byte) : State := { s with tag := v }

/-- `BUF[0..LEN]`, the only part of `BUF` a command touches (R50). -/
def State.payloadRegion (s : State) : Region := bufRegion s.len

/-- The contents of `BUF[0..LEN]`. -/
def State.payload (s : State) : List Byte := s.bytes s.payloadRegion

end Sys2Proof.Machine
end

