-- ==== Sys2Proof/Machine/Flags.lean ====
section
/-! DEFINITION. The flags of the block (10_state.md rule R51): `STATUS` and `CTRL` as the host reads them, `irq`, and the issue and
validation of a command (40_common.md rules R110 and R111). No arithmetic result sets a flag (R51). -/

namespace Sys2Proof.Machine

/-- `STATUS.BUSY` (R35): 1 from the issue of a command until its completion. -/
def State.busy (s : State) : Bool := s.flight.isSome

/-- `STATUS` as a byte (R35): bits 7:6 read 0, then `ERRCODE`, `ERR`, `DONE`, `BUSY`. -/
def State.statusByte (s : State) : Byte :=
  0#2 ++ s.status.errcode ++ BitVec.ofBool s.status.err ++ BitVec.ofBool s.status.done ++ BitVec.ofBool s.busy

/-- `CTRL` as a byte (R36): only `IE` reads back. -/
def State.ctrlByte (s : State) : Byte := 0#7 ++ BitVec.ofBool s.ie

/-- `irq = STATUS.DONE & CTRL.IE` (R62, R196). -/
def State.irq (s : State) : Bool := s.status.done && s.ie

/-- Is the byte one of the ten legal commands (R92)? -/
def isCommand (c : Byte) : Bool :=
  match decode c with
  | .ok _ => true
  | .error _ => false

/-- How many cycles pass after the issue of `c` before the cycle that completes it: `LAT - 1` (R241). An illegal byte
"completes at once" (R94). -/
def State.extraCycles (s : State) (c : Byte) : Nat := if isCommand c then s.params.lat.extra c s.len else 0

/-- Issue command byte `c` (R110). -/
def State.issue (s : State) (c : Byte) : State :=
  { s with
    cmd := c
    status := { done := false, err := false, errcode := 0 }
    flight := some { byte := c, left := s.extraCycles c } }

/-- Perform a command that does not read `LEN`: nothing is left to validate (R111), `effect` is performed (R112), and the
command completes (R113). -/
def perform (s : State) (effect : State → State) : Host.Outcome State Fault Refusal :=
  .next (effect s).complete

/-- Perform a command that reads `LEN`: validation step 2 of R111 comes before `effect` reads or writes any operand. -/
def performOnPayload (s : State) (effect : State → State) : Host.Outcome State Fault Refusal :=
  if s.params.bufSize < s.len then .next (s.completeWithError .lenRange)
  else perform s effect

end Sys2Proof.Machine
end

