-- ==== Sys2Proof/Machine/Checksum.lean ====
section
/-! DEFINITION. `STEPTAG` (43_integrity_checksum.md rule R160). -/

namespace Sys2Proof.Machine

/-- The stride `addCd`, 1 to 4 (R160): `pm` is `BUF[mid]`, or 0x00 for the empty payload (D9). -/
def tagStride (key payload : List Byte) : Nat :=
  let pm := if payload.length = 0 then 0x00 else byteAt payload (payload.length / 2)
  (byteAt key (pm &&& 0x1F).toNat &&& 0x03).toNat + 1

/-- What the visit of offset `i` adds to the accumulator (R160). -/
def tagTerm (payload : List Byte) (i : Nat) : Byte :=
  BitVec.ofNat 8 (popcount8 (not8 (byteAt payload i))) + BitVec.ofNat 8 i

/-- The loop `while i < L` of R160 from offset `i` on. The stride is at least 1, so `fuel` = `L` is enough. -/
def tagWalk (payload : List Byte) (stride fuel i : Nat) (acc : Byte) : Byte :=
  match fuel with
  | 0 => acc
  | fuel + 1 =>
    if i < payload.length then tagWalk payload stride fuel (i + stride) (acc + tagTerm payload i) else acc

/-- The term of one key byte in `ks` (R160): its population count, of its complement if its low bit is 0. -/
def keyTerm (b : Byte) : Nat := if lowBit b then popcount8 b else popcount8 (not8 b)

/-- The key sum `ks` (R160). -/
def keySum (key : List Byte) : Nat := (key.map keyTerm).sum

/-- The step tag of a payload under a 32-byte key (R160). -/
def stepTag (key payload : List Byte) : Byte :=
  let acc := tagWalk payload (tagStride key payload) payload.length 0 0
  let ks := BitVec.ofNat 8 (keySum key)
  not8 (if lowBit acc then acc - ks else acc + ks)

/-- The effect of `STEPTAG` (R160). -/
def State.computeTag (s : State) : State := s.setTag (stepTag (s.bytes pkeyRegion) s.payload)

/-- `STEPTAG` (R160): compute the step tag of the payload under the pass key. -/
def execSteptag (s : State) : Host.Outcome State Fault Refusal := performOnPayload s State.computeTag

end Sys2Proof.Machine
end

