-- ==== Sys2Proof/Machine/Hash.lean ====
section
/-! DEFINITION. The function `HASH16` (41_key_derivation.md rules R130 and R131), in raw-byte mode (R132). -/

namespace Sys2Proof.Machine

/-- The single pass of R130 (d) over an input, from position `p` on: each byte is read once, in ascending position order, and
updates the slots from what the earlier positions left in them. -/
def hashPass {σ : Type} (update : Nat → Byte → σ → σ) (p : Nat) (input : List Byte) (slots : σ) : σ :=
  match input with
  | [] => slots
  | v :: rest => hashPass update (p + 1) rest (update p v slots)

/-- `SEED[k] = (0x5A + 0x1D * k) mod 256` (R131). -/
def h16Seed (k : Nat) : Byte := BitVec.ofNat 8 (0x5A + 0x1D * k)

/-- One slot update of `H16REF`: slot `k` with value `t`, at input position `p` holding byte `v` (R131). -/
def h16Slot (p k : Nat) (v t : Byte) : Byte :=
  let d := v - BitVec.ofNat 8 (p + k)
  if isEven (p + k) then (t ^^^ d) - h16Seed k else t * (d ||| 1) - d

/-- All slot updates of one position, for the slots from `k` on. -/
def h16Position (p : Nat) (v : Byte) (k : Nat) (slots : List Byte) : List Byte :=
  match slots with
  | [] => []
  | t :: rest => h16Slot p k v t :: h16Position p v (k + 1) rest

/-- `H16REF` (R131). -/
def h16ref (input : List Byte) : List Byte :=
  hashPass (fun p v slots => h16Position p v 0 slots) 0 input ((List.range 16).map h16Seed)

/-- `HASH16` (R130): the default, or an instantiation with an uninterpreted table and an uninterpreted update. Every
instantiation has the four properties of R130: it is a function of the input bytes alone (a), its result is 16 bytes (b), the
empty input gives the constant table (c), and the input is read in a single pass over the 16 slots (d); log entry 2. -/
def hash16 (h : HashParam) (input : List Byte) : List Byte :=
  match h with
  | .h16ref => h16ref input
  | .opened n => (hashPass (Config.openHashUpdate n) 0 input (Config.openHashTable n)).toList

end Sys2Proof.Machine
end

