-- ==== Sys2Proof/Machine/Expansion.lean ====
section
/-! DEFINITION. `EXPAND` (42_table_expansion.md rule R150). -/

namespace Sys2Proof.Machine

/-- The step value `q = NOT8(s ^ e)` of a pair of key bytes (R150). -/
def expandStepValue (s e : Byte) : Byte := not8 (s ^^^ e)

/-- One update of the accumulator (R150): the parity of `n` BEFORE the update decides, even adds and odd subtracts. `q` is
zero-extended to a word32 (R12). -/
def expandAccumulate (n : Word32) (q : Byte) : Word32 :=
  if n.getLsbD 0 then n - q.setWidth 32 else n + q.setWidth 32

/-- The little-endian split of `n` into its four bytes (R76, R150). -/
def littleEndianBytes (n : Word32) : List Byte :=
  [n.extractLsb' 0 8, n.extractLsb' 8 8, n.extractLsb' 16 8, n.extractLsb' 24 8]

/-- The slices that the steps from accumulator `n` on append to the table, two key bytes a step (R150). -/
def expandSlices (h : HashParam) (n : Word32) (key : List Byte) : List Byte :=
  match key with
  | s :: e :: rest =>
    let n' := expandAccumulate n (expandStepValue s e)
    hash16 h (littleEndianBytes n') ++ expandSlices h n' rest
  | _ => []

/-- The effect of `EXPAND` (R150): all 16 steps write `TBL`, then every byte of `SK32` becomes 0x00. -/
def State.expandTable (s : State) : State :=
  (s.setBytes tblRegion (expandSlices s.params.hash 0 (s.bytes sk32Region))).setBytes sk32Region (List.replicate 32 0x00)

/-- `EXPAND` (R150): expand `SK32` into `TBL`, then wipe `SK32`. -/
def execExpand (s : State) : Host.Outcome State Fault Refusal := perform s State.expandTable

end Sys2Proof.Machine
end

