-- ==== Sys2Proof/Machine/KeyDerivation.lean ====
section
/-! DEFINITION. `HASH16A`, `HASH16B`, `MKPKEY` and `DERIVE` (41_key_derivation.md rules R134 to R137). -/

namespace Sys2Proof.Machine

/-- Hash `BUF[0..LEN]` into a 16-byte region: the effect shared by R134 and R135. -/
def State.hashPayloadInto (r : Region) (s : State) : State := s.setBytes r (hash16 s.params.hash s.payload)

/-- `HASH16A` (R134): hash the payload buffer into `HA`. -/
def execHash16a (s : State) : Host.Outcome State Fault Refusal := performOnPayload s (State.hashPayloadInto haRegion)

/-- `HASH16B` (R135): hash the payload buffer into `HB`. -/
def execHash16b (s : State) : Host.Outcome State Fault Refusal := performOnPayload s (State.hashPayloadInto hbRegion)

/-- The 32 bytes of `MKPKEY` (R136) from the hashes `ha` and `hb`: the first half keyed by `hb` at the same index, the second
half keyed by `ha` read in reverse, both by the unmixed hashes. -/
def persistentKey (ha hb : List Byte) : List Byte :=
  (List.range 16).map (fun i => byteMix hb i (byteAt ha i))
    ++ (List.range 16).map (fun i => byteMix ha (15 - i) (byteAt hb i))

/-- The effect of `MKPKEY` (R136). -/
def State.makePersistentKey (s : State) : State :=
  s.setBytes pkeyRegion (persistentKey (s.bytes haRegion) (s.bytes hbRegion))

/-- `MKPKEY` (R136): build `PKEY` from `HA` and `HB`. -/
def execMkpkey (s : State) : Host.Outcome State Fault Refusal := perform s State.makePersistentKey

/-- The 32 bytes of `DERIVE` (R137) from the hashes `low` and `high` and the public key: the pairs `SK32[2i]`, `SK32[2i+1]` for
`i` in 0..16, in order. -/
def sessionKey (low high pub : List Byte) : List Byte :=
  (List.range 16).flatMap (fun i =>
    [mixI i (byteAt low i) (byteAt pub (2 * i)), mixI i (byteAt high i) (byteAt low (15 - i))])

/-- The effect of `DERIVE` (R137). `low` and `high` are working values (D13): `HA` and `HB` are not touched. -/
def State.deriveSessionKey (s : State) : State :=
  let low := hash16 s.params.hash (s.bytes pkeyRegion)
  let high := hash16 s.params.hash (s.bytes pubRegion)
  s.setBytes sk32Region (sessionKey low high (s.bytes pubRegion))

/-- `DERIVE` (R137): derive `SK32` from `PKEY` and `PUB`. -/
def execDerive (s : State) : Host.Outcome State Fault Refusal := perform s State.deriveSessionKey

end Sys2Proof.Machine
end

