-- ==== Sys2Proof/Machine/Permutation.lean ====
section
/-! DEFINITION. `MIXTABLE`, `ENCRYPT` and `DECRYPT` (44_permutation_engine.md rules R173 to R175). -/

namespace Sys2Proof.Machine

/-- The state update of `MIXTABLE` (R173), initialisation polarity: complement if the low bit is 0. -/
def mixStep (s t : Byte) : Byte :=
  let u := s ^^^ not8 t
  if lowBit u then u else not8 u

/-- The state update of `ENCRYPT` and `DECRYPT` (R174), payload polarity: complement if the low bit is 1. -/
def payloadStep (s t : Byte) : Byte :=
  let u := s ^^^ not8 t
  if lowBit u then not8 u else u

/-- The loop of `MIXTABLE` (R173) from index `i` and state `s` on, over the table entries from `i` on: the new entries and the
final state. Entry `i` is read before it is overwritten and in iteration `i` only (R124). -/
def mixPass (r : RotParam) (pub : List Byte) (i : Nat) (s : Byte) (table : List Byte) : List Byte × Byte :=
  match table with
  | [] => ([], s)
  | t :: rest =>
    let s' := mixStep s t
    let tail := mixPass r pub (i + 1) s' rest
    (rot r (pattern s') (byteMix pub (i % 32) t) :: tail.1, tail.2)

/-- The loop of `ENCRYPT` (R174) from index `i` and state `s` on, over the buffer bytes from `i` on. -/
def encryptPass (r : RotParam) (table : List Byte) (i : Nat) (s : Byte) (buf : List Byte) : List Byte × Byte :=
  match buf with
  | [] => ([], s)
  | b :: rest =>
    let s' := payloadStep s (byteAt table (i % 256))
    let tail := encryptPass r table (i + 1) s' rest
    (rot r (pattern s') (byteMix table (i % 256) b) :: tail.1, tail.2)

/-- The loop of `DECRYPT` (R175) from index `i` and state `s` on, over the buffer bytes from `i` on. -/
def decryptPass (r : RotParam) (table : List Byte) (i : Nat) (s : Byte) (buf : List Byte) : List Byte × Byte :=
  match buf with
  | [] => ([], s)
  | b :: rest =>
    let s' := payloadStep s (byteAt table (i % 256))
    let tail := decryptPass r table (i + 1) s' rest
    (byteMix table (i % 256) (unrot r (pattern s') b) :: tail.1, tail.2)

/-- The effect of `MIXTABLE` (R173): the seed is the value of `STATE` at issue (D23). -/
def State.mixTable (s : State) : State :=
  let out := mixPass s.params.rot (s.bytes pubRegion) 0 s.roundState (s.bytes tblRegion)
  (s.setBytes tblRegion out.1).setRoundState out.2

/-- The effect of `ENCRYPT` (R174). -/
def State.encryptPayload (s : State) : State :=
  let out := encryptPass s.params.rot (s.bytes tblRegion) 0 s.roundState s.payload
  (s.setBytes s.payloadRegion out.1).setRoundState out.2

/-- The effect of `DECRYPT` (R175). -/
def State.decryptPayload (s : State) : State :=
  let out := decryptPass s.params.rot (s.bytes tblRegion) 0 s.roundState s.payload
  (s.setBytes s.payloadRegion out.1).setRoundState out.2

/-- `MIXTABLE` (R173): mix the public key into `TBL` in place, evolving `STATE` from its seed. -/
def execMixtable (s : State) : Host.Outcome State Fault Refusal := perform s State.mixTable

/-- `ENCRYPT` (R174): transform `BUF[0..LEN]` in place from plaintext to ciphertext. -/
def execEncrypt (s : State) : Host.Outcome State Fault Refusal := performOnPayload s State.encryptPayload

/-- `DECRYPT` (R175): transform `BUF[0..LEN]` in place from ciphertext to plaintext. -/
def execDecrypt (s : State) : Host.Outcome State Fault Refusal := performOnPayload s State.decryptPayload

end Sys2Proof.Machine
end

