-- ==== Sys2Proof/Machine/System.lean ====
section
/-! DEFINITION. `NOP` (40_common.md rule R115). -/

namespace Sys2Proof.Machine

/-- `NOP` (R115): "nothing happens between issue and completion". -/
def execNop (s : State) : Host.Outcome State Fault Refusal := perform s (fun t => t)

end Sys2Proof.Machine
end

