-- ==== Sys2Proof/Machine/Dispatch.lean ====
section
/-! DEFINITION. The meaning of each command (40_common.md rules R111 to R113), one arm per constructor of `Instr`. -/

namespace Sys2Proof.Machine

def exec (i : Instr) (s : State) : Host.Outcome State Fault Refusal :=
  match i with
  | .nop => Sys2Proof.Machine.execNop s
  | .hash16a => Sys2Proof.Machine.execHash16a s
  | .hash16b => Sys2Proof.Machine.execHash16b s
  | .mkpkey => Sys2Proof.Machine.execMkpkey s
  | .derive => Sys2Proof.Machine.execDerive s
  | .expand => Sys2Proof.Machine.execExpand s
  | .steptag => Sys2Proof.Machine.execSteptag s
  | .mixtable => Sys2Proof.Machine.execMixtable s
  | .encrypt => Sys2Proof.Machine.execEncrypt s
  | .decrypt => Sys2Proof.Machine.execDecrypt s

end Sys2Proof.Machine
end

