-- ==== Sys2Proof/Machine/Window.lean ====
section
/-! DEFINITION. The host window (20_memory.md rules R70 to R84): reads, writes, and which accesses stall while a command is in flight. -/

namespace Sys2Proof.Machine

/-- What a read of address `a`, where place `p` stands, returns (R73, R74). -/
def State.readPlace (s : State) (p : Place) (a : Addr) : Byte :=
  match p with
  | .id => Config.idValue
  | .ver => Config.verValue
  | .cmd => s.cmd
  | .status => s.statusByte
  | .ctrl => s.ctrlByte
  | .roundState => s.roundState
  | .tag => s.tag
  | .lenLo => s.lenLo
  | .lenHi => s.lenHi
  | .storage => s.byte a.toNat
  | .reserved => 0x00

/-- `MemRead(a, 1)`. A read has no side effect (R84). -/
def State.windowRead (s : State) (a : Addr) : Byte := s.readPlace (placeOf s.params.bufSize a) a

/-- A write to `CTRL` (R36, R221): `SRST` = 1 is a soft reset whatever the other bits are, `SRST` = 0 only updates `IE`. -/
def State.writeCtrl (s : State) (v : Byte) : State :=
  if v.getLsbD 1 then s.afterReset else { s with ie := v.getLsbD 0 }

/-- What a write of `v` to address `a`, where place `p` stands, does (R73, R74, R84). Read-only registers and reserved addresses
ignore it. -/
def State.writePlace (s : State) (p : Place) (a : Addr) (v : Byte) : State :=
  match p with
  | .id => s
  | .ver => s
  | .cmd => s.issue v
  | .status => s.clearFlags v
  | .ctrl => s.writeCtrl v
  | .roundState => s.setRoundState v
  | .tag => s.setTag v
  | .lenLo => { s with lenLo := v }
  | .lenHi => { s with lenHi := v }
  | .storage => s.setByte a.toNat v
  | .reserved => s

/-- `MemWrite(a, 1, v)`. -/
def State.windowWrite (s : State) (a : Addr) (v : Byte) : State := s.writePlace (placeOf s.params.bufSize a) a v

/-- The accesses of R78 that complete at once while a command is in flight; every other access stalls. `WAIT` reads `STATUS`
(R98), and a host that does nothing waits for nothing. -/
def HostOp.exempt (bufSize : Nat) (op : HostOp) : Bool :=
  match op with
  | .read a =>
    match placeOf bufSize a with
    | .id | .ver | .status | .ctrl | .reserved => true
    | .cmd | .roundState | .tag | .lenLo | .lenHi | .storage => false
  | .write a _ =>
    match placeOf bufSize a with
    | .status | .ctrl | .reserved => true
    | .id | .ver | .cmd | .roundState | .tag | .lenLo | .lenHi | .storage => false
  | .wait => true
  | .idle => true

/-- The address of `STATUS` (R72), which `WAIT` polls (R98). -/
def statusAddr : Addr := 0x0003

/-- The address of `CMD` (R72). -/
def cmdAddr : Addr := 0x0002

/-- The address of `CTRL` (R72). -/
def ctrlAddr : Addr := 0x0004

/-- Return a value to the host. -/
def State.reply (s : State) (v : Byte) : State := { s with replies := v :: s.replies }

/-- Perform the host's operation `op`, after which `rest` is still to do. `WAIT` stays in place while `BUSY` = 1 (R98). -/
def State.performHostOp (s : State) (op : HostOp) (rest : List HostOp) : State :=
  match op with
  | .read a => { s with bus := rest }.reply (s.windowRead a)
  | .write a v => { s with bus := rest }.windowWrite a v
  | .wait => { s with bus := if s.busy then op :: rest else rest }.reply (s.windowRead statusAddr)
  | .idle => { s with bus := rest }

/-- The host's turn (R78, R79): its next operation performs, or stalls in place while a command is in flight. -/
def State.hostTurn (s : State) : State :=
  match s.bus with
  | [] => s
  | op :: rest => if s.busy && !op.exempt s.params.bufSize then s else s.performHostOp op rest

end Sys2Proof.Machine
end

