-- ==== Sys2Proof/Machine/Engine.lean ====
section
/-! DEFINITION. The cycle of the block: the reset input (70_reset_and_hazards.md rule R220), the engine (40_common.md rules R110 to R113)
and the host (20_memory.md rules R78 and R79). -/

namespace Sys2Proof.Machine

/-- Validate, perform and complete command byte `c` (R111 to R113). Validation step 1 of R111 comes first: a byte that is none of
the ten legal ones completes with `ILLEGAL_CMD` (R94, R191, R195). -/
def runCommand (c : Byte) (s : State) : Host.Outcome State Fault Refusal :=
  match decode c with
  | .ok i => exec i s
  | .error _ => .next (s.completeWithError .illegalCmd)

/-- One cycle without a reset. With no command in flight the host has its turn; a command in its last cycle is performed and
completes; in an earlier cycle the engine counts down and the host has its turn. -/
def engineCycle (s : State) : Host.Outcome State Fault Refusal :=
  match s.flight with
  | none => .next s.hostTurn
  | some { byte := c, left := 0 } => runCommand c s
  | some { byte := c, left := n + 1 } => .next { s with flight := some { byte := c, left := n } }.hostTurn

/-- One cycle: the reset input of this cycle first. While it is asserted the block is reset and no host access performs
(R220, log entry 8). -/
def cycle (s : State) : Host.Outcome State Fault Refusal :=
  match s.resetIn with
  | [] => engineCycle s
  | true :: levels => .next { s with resetIn := levels }.afterReset
  | false :: levels => engineCycle { s with resetIn := levels }

/-- The reset input is not asserted in the next cycle; later cycles keep their levels. -/
def lowerReset (levels : List Bool) : List Bool :=
  match levels with
  | true :: rest => false :: rest
  | other => other

/-- Command byte `c` issued (R110) and in its last cycle: the next cycle performs and completes it. -/
def State.startCommand (s : State) (c : Byte) : State :=
  { s.issue c with flight := some { byte := c, left := 0 }, resetIn := lowerReset s.resetIn }

end Sys2Proof.Machine
end

