-- ==== Sys2Proof/Machine/Step.lean ====
section
/-! DEFINITION. One step of the machine, and how a command is placed where the engine takes its next command. -/

namespace Sys2Proof.Machine

/-- One step: one cycle of the block (Machine/Engine.lean). -/
def step (s : State) : Host.Outcome State Fault Refusal := cycle s

/-- The state in which the engine has taken the command byte `w` at its issue (R82, R110), so that the very next step runs it.
The block fetches nothing (R31): this stands for the host's write to `CMD` and the cycles up to the last (log entry 7). -/
def State.withFetchWord (s : State) (nbits w : Nat) : State := s.startCommand (tableByte nbits w)

end Sys2Proof.Machine
end

