-- ==== Sys2Proof/Machine/HostProgram.lean ====
section
/-! DEFINITION. The host's side of the interface: transaction words (30_encoding.md rule R97), pseudo-instructions (R98), the frame and the
host's sequences of block commands (70_reset_and_hazards.md rules R232 to R235), and the host's own checks (60_exceptions.md rule
R194, 41_key_derivation.md rule R132). "The block sees bus cycles" (R97): nothing here is decoded by the block. -/

namespace Sys2Proof.Machine

/-! ### Transaction words (R97) -/

/-- Why a 32-bit word is no transaction word. -/
inductive WordError where
  /-- Bits 30:24 are not 0. -/
  | reservedBits
  /-- A read whose bits 7:0 are not 0. -/
  | dataOfRead
  deriving DecidableEq, Repr

/-- The transaction word of a host operation (R97): bit 31 is `W`, bits 30:24 are 0, bits 23:8 the address, bits 7:0 the data of a
write and 0 for a read. `WAIT` is a loop of reads (R98) and an idle step no transaction: neither is one word. -/
def HostOp.toWord (op : HostOp) : Option (BitVec 32) :=
  match op with
  | .read a => some (0#8 ++ a ++ 0#8)
  | .write a v => some (0x80#8 ++ a ++ v)
  | .wait => none
  | .idle => none

/-- The host operation of a transaction word (R97), total, rejecting by name. -/
def transactionOf (w : BitVec 32) : Except WordError HostOp :=
  if w.extractLsb' 24 7 ≠ 0 then .error .reservedBits
  else if w.getLsbD 31 then .ok (.write (w.extractLsb' 8 16) (w.extractLsb' 0 8))
  else if w.extractLsb' 0 8 ≠ 0 then .error .dataOfRead
  else .ok (.read (w.extractLsb' 8 16))

/-! ### Pseudo-instructions (R96, R98) -/

/-- The forms of a host program. `CHK` encodes as its `RD` (R97); `WR addr, expr` "encodes as the `WR` of the computed byte" (R98). -/
inductive Pseudo where
  | rd (a : Addr)
  | wr (a : Addr) (v : Byte)
  | chk (a : Addr) (v : Byte)
  | cmd (i : Instr)
  | setLen (n : Nat)
  | wrBlk (base : Addr) (bs : List Byte)
  | rdBlk (base : Addr) (n : Nat)
  | wait
  | clrSt
  | softRst
  deriving DecidableEq, Repr

/-- `SETLEN` takes 0 to 0xFFFF (R98), and a block stays inside the 16-bit window (R70). -/
def Pseudo.wf (p : Pseudo) : Bool :=
  match p with
  | .setLen n => decide (n ≤ 0xFFFF)
  | .wrBlk base bs => decide (base.toNat + bs.length ≤ 0x10000)
  | .rdBlk base n => decide (base.toNat + n ≤ 0x10000)
  | .rd _ | .wr _ _ | .chk _ _ | .cmd _ | .wait | .clrSt | .softRst => true

/-- `WR base, b0; WR base+1, b1; ...` (R98). -/
def writeOps (base : Addr) (bs : List Byte) : List HostOp :=
  match bs with
  | [] => []
  | b :: rest => .write base b :: writeOps (base + 1) rest

/-- `RD base; RD base+1; ...`, `n` of them (R96). -/
def readOps (base : Addr) (n : Nat) : List HostOp :=
  match n with
  | 0 => []
  | n + 1 => .read base :: readOps (base + 1) n

/-- The expansion of a form into host operations (R96, R98). -/
def Pseudo.expand (p : Pseudo) : List HostOp :=
  match p with
  | .rd a => [.read a]
  | .wr a v => [.write a v]
  | .chk a _ => [.read a]
  | .cmd i => [.write cmdAddr (encode i)]
  | .setLen n => [.write 0x0008 (BitVec.ofNat 8 n), .write 0x0009 (BitVec.ofNat 8 (n / 256))]
  | .wrBlk base bs => writeOps base bs
  | .rdBlk base n => readOps base n
  | .wait => [.wait]
  | .clrSt => [.write statusAddr 0x06]
  | .softRst => [.write ctrlAddr 0x02]

/-- A host program as host operations, in program order. -/
def hostProgram (ps : List Pseudo) : List HostOp := ps.flatMap Pseudo.expand

/-! ### The frame and the host's checks (R132, R194, R232) -/

/-- The errors of the host's decode call (R194); the block neither raises nor records them. -/
inductive HostError where
  | formatError
  | integrityError
  deriving DecidableEq, Repr

/-- The obfuscated tag `NOT8(tag7 ^ r)` (R232). -/
def obfuscateTag (tag7 r : Byte) : Byte := not8 (tag7 ^^^ r)

/-- `tag7 = NOT8(frame[1] ^ frame[0]) & 0x7F` (R232). -/
def recoverTag (frame0 frame1 : Byte) : Byte := not8 (frame1 ^^^ frame0) &&& 0x7F

/-- The frame bytes (R232): random byte, obfuscated tag, public key, ciphertext. -/
def buildFrame (r tag7 : Byte) (pub cipher : List Byte) : List Byte :=
  [r, obfuscateTag tag7 r] ++ pub ++ cipher

/-- What the decoder takes from a frame (R232). -/
structure FrameParts where
  tag7 : Byte
  pub : List Byte
  cipher : List Byte
  deriving DecidableEq, Repr

/-- Parse a frame (R194, R232, R235): a length of at most 34 is a `FormatError` (90_conflicts.md C2). -/
def parseFrame (frame : List Byte) : Except HostError FrameParts :=
  if frame.length ≤ 34 then .error .formatError
  else
    .ok { tag7 := recoverTag (byteAt frame 0) (byteAt frame 1)
          pub := (frame.drop 2).take 32
          cipher := frame.drop 34 }

/-- The tag check of decode step 7 (R194, R235): `t` is the value read from `TAG`. -/
def checkTag (t tag7 : Byte) (plain : List Byte) : Except HostError (List Byte) :=
  if t &&& 0x7F = tag7 then .ok plain else .error .integrityError

/-- Text as the host writes it into `BUF` (R132, D22): one byte per code unit, and a text with a code unit above 0xFF is refused. -/
def textBytes (units : List Nat) : Option (List Byte) :=
  if units.all (fun u => decide (u ≤ 0xFF)) then some (units.map (BitVec.ofNat 8)) else none

/-! ### The host's sequences (R233 to R235) -/

/-- Pass-key set-up (a): write the key array directly (R233). -/
def writePassKey (key : List Byte) : List Pseudo := [.wrBlk 0x0040 key]

/-- Pass-key set-up (b): `createPersistentKey` for the bytes of a pass phrase and of a domain (R233). -/
def makePassKey (phrase domain : List Byte) : List Pseudo :=
  [.wrBlk 0x1000 phrase, .setLen phrase.length, .cmd .hash16a,
   .wrBlk 0x1000 domain, .setLen domain.length, .cmd .hash16b, .cmd .mkpkey]

/-- Encode, up to the read of `TAG` into the host variable `t` (R234). -/
def encodeUpToTag (pub plain : List Byte) : List Pseudo :=
  [.wrBlk 0x0060 pub, .cmd .derive, .cmd .expand,
   .wrBlk 0x1000 plain, .setLen plain.length, .cmd .steptag, .rd 0x0006]

/-- Encode, from the seed on (R234): `t` is the value read from `TAG`, `n` the length of the payload. -/
def encodeFromTag (t : Byte) (n : Nat) : List Pseudo :=
  [.wr 0x0005 (t &&& 0x7F), .cmd .mixtable, .cmd .encrypt, .rdBlk 0x1000 n]

/-- Decode (R235), for the parts of a frame; the host then applies `checkTag` to the value read from `TAG`. -/
def decodeSequence (f : FrameParts) : List Pseudo :=
  [.wrBlk 0x0060 f.pub, .cmd .derive, .cmd .expand, .wr 0x0005 f.tag7, .cmd .mixtable,
   .wrBlk 0x1000 f.cipher, .setLen f.cipher.length, .cmd .decrypt, .cmd .steptag, .rd 0x0006,
   .rdBlk 0x1000 f.cipher.length]

end Sys2Proof.Machine
end

