-- ==== Sys2Proof/Safety.lean ====
section
/-! DEFINITION. What counts as a safe state, and the terms the claims use: the read and write sets of the commands (10_state.md rule R61)
and the sequences of working values as the spec's loops give them, index by index. -/

namespace Sys2Proof.Machine

/-! ### The invariant -/

/-- The states the block can be in.
The parameters are legal (R7); the memory has its canonical form and lists only bytes of the byte memories (R72, R74: a reserved
address is no storage); `ERRCODE` is 0 exactly when `ERR` is 0 (R35), and no reserved code is ever produced (S3); while a command
is in flight, `CMD` still holds its byte (R34, R78) and `DONE` and `ERR` are 0 (R110). -/
abbrev State.Inv (s : State) : Prop :=
  s.params.wf = true ∧
  Memory.wf s.mem ∧
  (∀ c ∈ s.mem, isStorage s.params.bufSize c.1 = true) ∧
  (s.status.err = true ↔ s.status.errcode ≠ 0) ∧
  s.status.errcode.toNat ≤ 2 ∧
  (∀ f ∈ s.flight, f.byte = s.cmd ∧ s.status.done = false ∧ s.status.err = false)

/-- What each address of the host window reads as after a reset (R63): the constants of `ID` and `VER`, and 0x00 everywhere else. -/
def resetValueAt (a : Addr) : Byte := if a = 0x0000 then 0x53 else if a = 0x0001 then 0x01 else 0x00

/-- The addresses that the map of R72 calls reserved. -/
abbrev isReservedAddress (bufSize k : Nat) : Prop :=
  k = 0x0007 ∨ (0x000A ≤ k ∧ k ≤ 0x000F) ∨ (0x0030 ≤ k ∧ k ≤ 0x003F) ∨ (0x00A0 ≤ k ∧ k ≤ 0x00FF) ∨
    (0x0200 ≤ k ∧ k ≤ 0x0FFF) ∨ 0x1000 + bufSize ≤ k

/-! ### Read and write sets (R61) -/

/-- The commands that read `LEN` (R61, R111). -/
def readsLen (i : Instr) : Bool :=
  match i with
  | .hash16a | .hash16b | .steptag | .encrypt | .decrypt => true
  | .nop | .mkpkey | .derive | .expand | .mixtable => false

/-- The commands that read `STATE` (R61). -/
def readsRoundState (i : Instr) : Bool :=
  match i with
  | .mixtable | .encrypt | .decrypt => true
  | .nop | .hash16a | .hash16b | .mkpkey | .derive | .expand | .steptag => false

/-- The byte memories a command reads, for a given `LEN` (R61). -/
def readRegions (i : Instr) (len : Nat) : List Region :=
  match i with
  | .nop => []
  | .hash16a | .hash16b => [bufRegion len]
  | .mkpkey => [haRegion, hbRegion]
  | .derive => [pkeyRegion, pubRegion]
  | .expand => [sk32Region]
  | .steptag => [bufRegion len, pkeyRegion]
  | .mixtable => [tblRegion, pubRegion]
  | .encrypt | .decrypt => [bufRegion len, tblRegion]

/-- The commands that write `STATE` (R61). -/
def writesRoundState (i : Instr) : Bool := readsRoundState i

/-- The commands that write `TAG` (R61). -/
def writesTag (i : Instr) : Bool :=
  match i with
  | .steptag => true
  | .nop | .hash16a | .hash16b | .mkpkey | .derive | .expand | .mixtable | .encrypt | .decrypt => false

/-- The byte memories a command writes, for a given `LEN` (R61). -/
def writeRegions (i : Instr) (len : Nat) : List Region :=
  match i with
  | .nop | .steptag => []
  | .hash16a => [haRegion]
  | .hash16b => [hbRegion]
  | .mkpkey => [pkeyRegion]
  | .derive => [sk32Region]
  | .expand => [tblRegion, sk32Region]
  | .mixtable => [tblRegion]
  | .encrypt | .decrypt => [bufRegion len]

/-- The state after a command that wrote memory `m`, round state `rs` and tag `tg` and completed without an error: nothing else
differs from `s` but `DONE` and `BUSY` (R113). -/
def State.completedWith (s : State) (m : List Host.Cell) (rs tg : Byte) : State :=
  { s with mem := m, roundState := rs, tag := tg, status := { s.status with done := true }, flight := none }

/-- Memory `m` differs from that of `s` nowhere outside region `r`, byte by byte. -/
def State.agreesOutside (s : State) (m : List Host.Cell) (r : Region) : Prop :=
  ∀ k, r.holds k = false → Memory.read m k = s.byte k

/-! ### The working values of the spec's loops, index by index -/

/-- `BUF[0..LEN]`, byte by byte (R50). -/
def State.payloadBytes (s : State) : List Byte := (List.range s.len).map (fun j => s.byte (0x1000 + j))

/-- The 32 bytes from address `base` on, byte by byte. -/
def State.bytes32 (s : State) (base : Nat) : List Byte := (List.range 32).map (fun j => s.byte (base + j))

/-- The accumulator `n` of `EXPAND` after `k` steps (R150), for the key bytes `key`. -/
def expandAccAt (key : Nat → Byte) (k : Nat) : Word32 :=
  match k with
  | 0 => 0
  | k + 1 =>
    let n := expandAccAt key k
    let q := not8 (key (2 * k) ^^^ key (2 * k + 1))
    if n.toNat % 2 = 0 then n + BitVec.ofNat 32 q.toNat else n - BitVec.ofNat 32 q.toNat

/-- The four bytes of a word32, `[n[7:0], n[15:8], n[23:16], n[31:24]]` (R76). -/
def wordBytes (n : Word32) : List Byte := (List.range 4).map (fun j => BitVec.ofNat 8 (n.toNat / 256 ^ j))

/-- The round state of `MIXTABLE` after `i` iterations (R173), for the table entries `tbl`. -/
def mixStateAt (seed : Byte) (tbl : Nat → Byte) (i : Nat) : Byte :=
  match i with
  | 0 => seed
  | i + 1 =>
    let s := mixStateAt seed tbl i ^^^ not8 (tbl i)
    if (s &&& 1) = 0 then not8 s else s

/-- The round state of `ENCRYPT` and `DECRYPT` after `i` iterations (R174), for the table entries `tbl`. -/
def payloadStateAt (seed : Byte) (tbl : Nat → Byte) (i : Nat) : Byte :=
  match i with
  | 0 => seed
  | i + 1 =>
    let s := payloadStateAt seed tbl i ^^^ not8 (tbl (i % 256))
    if (s &&& 1) = 1 then not8 s else s

/-- The stride of `STEPTAG` (R160), for a length, payload bytes and key bytes. -/
def strideOf (len : Nat) (buf key : Nat → Byte) : Nat :=
  (key (if len = 0 then 0 else (buf (len / 2)).toNat % 32)).toNat % 4 + 1

/-- The sum of the walk of `STEPTAG` (R160) over the visited offsets, the multiples of the stride below `len`. -/
def walkSum (len stride : Nat) (buf : Nat → Byte) : Nat :=
  (((List.range len).filter (fun i => i % stride == 0)).map (fun i => popcount8 (not8 (buf i)) + i % 256)).sum

/-- The key sum `ks` of `STEPTAG` (R160). -/
def keySumOf (key : Nat → Byte) : Nat :=
  ((List.range 32).map (fun x => popcount8 (if (key x).toNat % 2 = 0 then not8 (key x) else key x))).sum

/-! ### Commands in flight -/

/-- Is the host operation a soft reset (R221)? -/
def HostOp.isSoftReset (op : HostOp) : Bool :=
  match op with
  | .write a v => a == ctrlAddr && v.getLsbD 1
  | .read _ => false
  | .wait => false
  | .idle => false

end Sys2Proof.Machine
end

