-- ==== Sys2Proof/Certificates/Slice0/Obligations.lean ====
section
/-! DEFINITION. The statements for the provers. Each docstring names the rule of spec/ it formalises. A premise `Memory.wf s.mem` rules
out only memories that are not in canonical form, which no run reaches (`StepKeepsTheInvariant`). -/

open Sys2Proof Sys2Proof.Machine

/-! ### Decoding and encoding -/

/-- R92, the encoding columns: decoding the encoding of a command gives the command back. -/
def Obligations.DecodeInvertsEncode : Prop :=
  ∀ i : Instr, i.wf = true → decode (encode i) = .ok i

/-- R92: the ten legal bytes, each selected exactly by its own row. -/
def Obligations.EachCommandIsExactlyItsByte : Prop :=
  ∀ c : Byte,
    (decode c = .ok .nop ↔ c = 0x00) ∧ (decode c = .ok .hash16a ↔ c = 0x01) ∧
    (decode c = .ok .hash16b ↔ c = 0x11) ∧ (decode c = .ok .mkpkey ↔ c = 0x02) ∧
    (decode c = .ok .derive ↔ c = 0x03) ∧ (decode c = .ok .expand ↔ c = 0x04) ∧
    (decode c = .ok .steptag ↔ c = 0x05) ∧ (decode c = .ok .mixtable ↔ c = 0x06) ∧
    (decode c = .ok .encrypt ↔ c = 0x07) ∧ (decode c = .ok .decrypt ↔ c = 0x17)

/-- Words written out bit by bit from the columns OP, M and RSV of R90 and R92, one per command family. -/
def Obligations.TableWordsDecode : Prop :=
  decodeTableWord 8 0b00000000 = some .nop ∧ decodeTableWord 8 0b00010001 = some .hash16b ∧
  decodeTableWord 8 0b00000100 = some .expand ∧ decodeTableWord 8 0b00000101 = some .steptag ∧
  decodeTableWord 8 0b00010111 = some .decrypt ∧ decodeTableWord 8 0b00010010 = none

/-- R94, R191: 246 bytes are illegal, in groups of 224, 16 and 6, and writing any of them to `CMD` completes at once with
`ILLEGAL_CMD` and changes no state but `CMD` and `STATUS` (and the model's own queue of host operations, which it leaves).
"At once" is read as one cycle, the least latency there is (log entry 9). -/
def Obligations.IllegalBytesChangeOnlyCmdAndStatus : Prop :=
  (List.range 256).countP (fun n => !isCommand (BitVec.ofNat 8 n)) = 246 ∧
  (List.range 256).countP (fun n => !isCommand (BitVec.ofNat 8 n) && decide (n / 32 ≠ 0)) = 224 ∧
  (List.range 256).countP (fun n => !isCommand (BitVec.ofNat 8 n) && decide (n / 32 = 0 ∧ 8 ≤ n % 16)) = 16 ∧
  (List.range 256).filter (fun n => !isCommand (BitVec.ofNat 8 n) && decide (n / 32 = 0 ∧ n % 16 < 8)) =
    [0x10, 0x12, 0x13, 0x14, 0x15, 0x16] ∧
  ∀ (s : State) (c : Byte) (rest : List HostOp),
    isCommand c = false → s.flight = none → s.resetIn = [] → s.bus = .write 0x0002 c :: rest →
    core.run 2 s =
      .next { s with cmd := c, bus := rest, status := { done := true, err := true, errcode := 1 } }

/-! ### Reset, the invariant, and whole-machine rules -/

/-- The state right after reset meets the invariant. -/
def Obligations.ResetMeetsTheInvariant : Prop := State.reset.Inv

/-- Every step keeps the invariant: legal parameters, canonical memory that lists only bytes of the byte memories (R72, R74),
`ERRCODE` 0 exactly when `ERR` is 0 and never a reserved code (R35, R190), and `CMD` holding the byte of the command in flight
with `DONE` and `ERR` 0 (R34, R78, R110). -/
def Obligations.StepKeepsTheInvariant : Prop :=
  ∀ s t : State, s.Inv → step s = .next t → t.Inv

/-- R193, R198: no step of the machine stops; the only errors are the two that `STATUS` records. -/
def Obligations.StepAlwaysAnswersANextState : Prop :=
  ∀ s : State, ∃ t, step s = .next t ∧
    (t.status.errcode = s.status.errcode ∨ t.status.errcode = 0 ∨ t.status.errcode = 1 ∨ t.status.errcode = 2)

/-- R7: no step changes the parameters. -/
def Obligations.StepKeepsTheParameters : Prop :=
  ∀ s t : State, step s = .next t → t.params = s.params

/-- R63: after a hardware reset or a soft reset, and in the model's reset state, every address of the window reads its reset value,
no command is in flight and `irq` is 0. -/
def Obligations.ResetGivesEveryResetValue : Prop :=
  ((∀ a, State.reset.windowRead a = resetValueAt a) ∧ State.reset.flight = none ∧ State.reset.irq = false) ∧
  (∀ (s : State) (levels : List Bool), s.resetIn = true :: levels →
    ∃ t, step s = .next t ∧ (∀ a, t.windowRead a = resetValueAt a) ∧ t.flight = none ∧ t.irq = false) ∧
  (∀ (s : State) (v : Byte), v.getLsbD 1 = true →
    (∀ a, (s.windowWrite 0x0004 v).windowRead a = resetValueAt a) ∧
    (s.windowWrite 0x0004 v).flight = none ∧ (s.windowWrite 0x0004 v).irq = false)

/-- R220: asserting the reset input aborts the command in flight without completing it and restores every reset value, and a host
access that was stalled then performs against the reset state. The host's own fields (the pending operations, the coming reset
levels, the replies) are the model's and stay: that the host's queue stays whole in the step in which the reset is asserted is the
model's choice (log entry 8). -/
def Obligations.HardwareResetAbortsAndRestores : Prop :=
  ∀ (s : State) (levels : List Bool), s.resetIn = true :: levels →
    let t : State :=
      { State.reset with params := s.params, bus := s.bus, resetIn := levels, replies := s.replies }
    step s = .next t ∧ t.busy = false ∧ t.status.done = false ∧ t.irq = false ∧
    ∀ op rest, s.bus = op :: rest → levels = [] → step t = .next (t.performHostOp op rest)

/-- R221: a write to `CTRL` with bit 1 set is the reset action whatever the other bits are, at once and also while busy; with bit 1
clear it only updates `IE`. The clause about `step` leaves out a command in its last cycle (`left` = 0, the only busy cycle of a command
whose latency is 1), in which the model gives the host no access (log entry 6); `SoftResetInTheLastCycle` says what happens there. -/
def Obligations.SoftResetByCtrlWrite : Prop :=
  ∀ (s : State) (v : Byte) (rest : List HostOp),
    s.windowWrite 0x0004 v =
      (if v.getLsbD 1 then
        { State.reset with params := s.params, bus := s.bus, resetIn := s.resetIn, replies := s.replies }
      else { s with ie := v.getLsbD 0 }) ∧
    (s.bus = .write 0x0004 v :: rest → s.resetIn = [] → v.getLsbD 1 = true →
      (s.flight = none ∨ ∃ c n, s.flight = some { byte := c, left := n + 1 }) →
      step s = .next { State.reset with params := s.params, bus := rest, replies := s.replies })

/-! ### The command life cycle -/

/-- R110: a write of `c` to `CMD` while `BUSY` = 0 issues `c`; while `BUSY` = 1 it stalls in place until the command in flight has
completed, and the first clause then issues it. -/
def Obligations.CmdWriteIssuesOrStalls : Prop :=
  ∀ (s : State) (c : Byte) (rest : List HostOp), s.resetIn = [] → s.bus = .write 0x0002 c :: rest →
    (s.busy = false → ∃ t, step s = .next t ∧ t.cmd = c ∧ t.busy = true ∧ (∃ n, t.flight = some { byte := c, left := n }) ∧
      t.status = { done := false, err := false, errcode := 0 } ∧
      t = { s with cmd := t.cmd, status := t.status, flight := t.flight, bus := rest }) ∧
    (∀ d n, s.flight = some { byte := d, left := n } →
      ∃ u, core.run (n + 1) s = .next u ∧ u.busy = false ∧ u.cmd = s.cmd ∧ u.bus = s.bus ∧ u.resetIn = [])

/-- A step in the last cycle of a command in flight runs the decoded command: beside taking the level of the reset input off its
list, the step adds nothing around `exec`. -/
def Obligations.StepRunsTheDecodedCommand : Prop :=
  ∀ (s : State) (c : Byte) (i : Instr), s.flight = some { byte := c, left := 0 } → decode c = .ok i →
    s.resetIn.head? ≠ some true → step s = exec i { s with resetIn := s.resetIn.tail }

/-- A command placed by `withFetchWord` is issued (R110), in its last cycle, and runs in the very next step. -/
def Obligations.PlacedCommandRunsNext : Prop :=
  ∀ (s : State) (i : Instr), s.resetIn = [] →
    step (s.withFetchWord 8 (encode i).toNat) =
      exec i { s with cmd := encode i, status := { done := false, err := false, errcode := 0 },
                      flight := some { byte := encode i, left := 0 } }

/-- R113, and the check of R111: every command completes, with `DONE` = 1 and `BUSY` = 0; it raises `LEN_RANGE` exactly when it
reads `LEN` and `LEN > BUF_SIZE`; `irq` follows `DONE & IE`. A byte that is no command completes with `ILLEGAL_CMD`. -/
def Obligations.CompletionSetsTheFlags : Prop :=
  (∀ (i : Instr) (s : State), ∃ t, exec i s = .next t ∧ t.busy = false ∧ t.status.done = true ∧ t.irq = s.ie ∧
    (if readsLen i = true ∧ s.params.bufSize < s.len then t.status.err = true ∧ t.status.errcode = 2
      else t.status.err = s.status.err ∧ t.status.errcode = s.status.errcode)) ∧
  (∀ (c : Byte) (s : State), isCommand c = false → ∃ t, runCommand c s = .next t ∧ t.busy = false ∧
    t.status.done = true ∧ t.irq = s.ie ∧ t.status.err = true ∧ t.status.errcode = 1)

/-- R114, R195: a command that raises an error writes nothing but `STATUS`: no operand is written, and an illegal byte reports
`ILLEGAL_CMD` whatever `LEN` is. -/
def Obligations.ErrorsWriteNothingButStatus : Prop :=
  (∀ (i : Instr) (s : State), readsLen i = true → s.params.bufSize < s.len →
    exec i s = .next { s with status := { done := true, err := true, errcode := 2 }, flight := none }) ∧
  (∀ (c : Byte) (s : State), isCommand c = false →
    runCommand c s = .next { s with status := { done := true, err := true, errcode := 1 }, flight := none })

/-- R192: the commands that read `LEN` raise `LEN_RANGE` when `LEN > BUF_SIZE`; the five others never raise it. -/
def Obligations.LenRangeExactlyForTheCommandsThatReadLen : Prop :=
  (∀ (i : Instr) (s : State), i ∈ [.hash16a, .hash16b, .steptag, .encrypt, .decrypt] → s.params.bufSize < s.len →
    exec i s = .next { s with status := { done := true, err := true, errcode := 2 }, flight := none }) ∧
  (∀ (i : Instr) (s : State), i ∈ [.nop, .mkpkey, .derive, .expand, .mixtable] →
    ∃ t, exec i s = .next t ∧ t.status = { s.status with done := true })

/-- R78: while a command is in flight the exempt accesses are those to the constants, `STATUS`, `CTRL` and the reserved addresses, and
they perform at once; every other access stalls to the end, the command completes as if nothing had waited, and the access then
performs against the state the command left; a write to `CTRL` with `SRST` = 1 aborts the command, and what the host does next
performs against the reset state. (In a command's last cycle the model gives the host no access: log entry 6.) -/
def Obligations.HostAccessesWhileBusy : Prop :=
  (∀ (bufSize : Nat) (a : Addr) (v : Byte),
    (HostOp.exempt bufSize (.read a) = true ↔
      a.toNat = 0x0000 ∨ a.toNat = 0x0001 ∨ a.toNat = 0x0003 ∨ a.toNat = 0x0004 ∨ isReservedAddress bufSize a.toNat) ∧
    (HostOp.exempt bufSize (.write a v) = true ↔
      a.toNat = 0x0003 ∨ a.toNat = 0x0004 ∨ isReservedAddress bufSize a.toNat)) ∧
  (∀ (s : State) (c : Byte) (n : Nat) (op : HostOp) (rest : List HostOp),
    s.flight = some { byte := c, left := n + 1 } → s.resetIn = [] → s.bus = op :: rest →
    op.exempt s.params.bufSize = true →
    step s = .next ({ s with flight := some { byte := c, left := n } }.performHostOp op rest)) ∧
  (∀ (s : State) (c : Byte) (n : Nat) (op : HostOp) (rest : List HostOp),
    s.flight = some { byte := c, left := n } → s.resetIn = [] → s.bus = op :: rest →
    op.exempt s.params.bufSize = false →
    ∃ u, runCommand c s = .next u ∧ core.run (n + 1) s = .next u ∧ step u = .next (u.performHostOp op rest)) ∧
  (∀ (s : State) (c v : Byte) (n : Nat) (op : HostOp) (rest : List HostOp),
    s.flight = some { byte := c, left := n + 1 } → s.resetIn = [] → s.bus = .write 0x0004 v :: op :: rest →
    v.getLsbD 1 = true →
    ∃ u, step s = .next u ∧ u = { State.reset with params := s.params, bus := op :: rest, replies := s.replies } ∧
      step u = .next (u.performHostOp op rest))

/-- R79, R237: whatever `LAT` is and whatever the host does while the command runs, short of a soft reset, the command is atomic: its
result in every register and memory is that of performing it at its issue. -/
def Obligations.CommandIsAtomicWhateverTheHostDoes : Prop :=
  ∀ (s : State) (c : Byte) (n : Nat), s.Inv → s.flight = some { byte := c, left := n } → s.resetIn = [] →
    (∀ op ∈ s.bus.take n, op.isSoftReset = false) →
    ∃ t u, core.run (n + 1) s = .next t ∧ runCommand c s = .next u ∧
      t.cmd = u.cmd ∧ t.status = u.status ∧ t.roundState = u.roundState ∧ t.tag = u.tag ∧
      t.lenLo = u.lenLo ∧ t.lenHi = u.lenHi ∧ t.mem = u.mem ∧ t.flight = none ∧ u.flight = none

/-- R241: every command in flight has completed, or a reset has aborted it, within as many steps as it has cycles left. -/
def Obligations.CommandsEndWithinTheirLatency : Prop :=
  ∀ (s : State) (c : Byte) (n : Nat), s.flight = some { byte := c, left := n } →
    ∃ k t, k ≤ n + 1 ∧ core.run k s = .next t ∧ t.busy = false

/-- R61: what each command reads and writes. Outside its write set nothing changes but `DONE`, `ERR`, `ERRCODE` and `BUSY`; and two
states that agree on a command's read set give the same values in its write set. -/
def Obligations.CommandsReadAndWriteTheirSets : Prop :=
  (∀ (i : Instr) (s : State), ∃ m rs tg st,
    exec i s = .next { s with mem := m, roundState := rs, tag := tg, status := st, flight := none } ∧
    (writesRoundState i = false → rs = s.roundState) ∧ (writesTag i = false → tg = s.tag) ∧
    ∀ k, (∀ r ∈ writeRegions i s.len, r.holds k = false) → Memory.read m k = s.byte k) ∧
  (∀ (i : Instr) (s s' t t' : State), Memory.wf s.mem → Memory.wf s'.mem → s.params = s'.params →
    (readsLen i = true → s.len = s'.len ∧ s.len ≤ s.params.bufSize) →
    (readsRoundState i = true → s.roundState = s'.roundState) →
    (∀ r ∈ readRegions i s.len, ∀ k, r.holds k = true → s.byte k = s'.byte k) →
    exec i s = .next t → exec i s' = .next t' →
    (writesRoundState i = true → t.roundState = t'.roundState) ∧ (writesTag i = true → t.tag = t'.tag) ∧
    ∀ r ∈ writeRegions i s.len, ∀ k, r.holds k = true → t.byte k = t'.byte k)

/-! ### Registers and the host window -/

/-- R33: `ID` and `VER` read as their constants in every state, writes to them are ignored, and their reads never stall. -/
def Obligations.IdAndVerAreConstant : Prop :=
  ∀ (s : State) (v : Byte),
    s.windowRead 0x0000 = 0x53 ∧ s.windowRead 0x0001 = 0x01 ∧
    s.windowWrite 0x0000 v = s ∧ s.windowWrite 0x0001 v = s ∧
    HostOp.exempt s.params.bufSize (.read 0x0000) = true ∧ HostOp.exempt s.params.bufSize (.read 0x0001) = true

/-- R35: the fields of `STATUS`, what a write to it does to them, and what the issue and the completion of a command do. `ERRCODE` is 0
when `ERR` = 0 in every state that meets the invariant. -/
def Obligations.StatusFieldsAndWriteOneToClear : Prop :=
  ∀ (s : State) (v : Byte),
    (let b := s.windowRead 0x0003
     b.getLsbD 0 = s.busy ∧ b.getLsbD 1 = s.status.done ∧ b.getLsbD 2 = s.status.err ∧
     b.extractLsb' 3 3 = s.status.errcode ∧ b.extractLsb' 6 2 = 0) ∧
    s.windowWrite 0x0003 v =
      { s with status :=
        { done := if v.getLsbD 1 then false else s.status.done
          err := if v.getLsbD 2 then false else s.status.err
          errcode := if v.getLsbD 2 then 0 else s.status.errcode } } ∧
    (s.issue v).busy = true ∧ (s.issue v).status = { done := false, err := false, errcode := 0 } ∧
    (s.complete.busy = false ∧ s.complete.status = { s.status with done := true }) ∧
    (∀ e : CmdError, (s.completeWithError e).busy = false ∧
      (s.completeWithError e).status = { done := true, err := true, errcode := if e = .illegalCmd then 1 else 2 }) ∧
    (s.Inv → s.status.err = false → (s.windowRead 0x0003).extractLsb' 3 3 = 0) ∧
    State.reset.windowRead 0x0003 = 0x00

/-- R36: `CTRL` reads back `IE` only, and a write without `SRST` stores bit 0. -/
def Obligations.CtrlReadsBackOnlyInterruptEnable : Prop :=
  ∀ (s : State) (v : Byte),
    s.windowRead 0x0004 = (if s.ie then 0x01 else 0x00) ∧
    (v.getLsbD 1 = false → s.windowWrite 0x0004 v = { s with ie := v.getLsbD 0 }) ∧
    (v.getLsbD 1 = true → s.windowWrite 0x0004 v = s.afterReset) ∧
    s.irq = (s.status.done && s.ie) ∧ State.reset.windowRead 0x0004 = 0x00

/-- R62, R196: `irq` is `DONE & IE`; a completion raises it if `IE` is 1, and writing 1 to `DONE`, issuing a command or a reset
clears it. -/
def Obligations.IrqIsDoneAndEnable : Prop :=
  ∀ (s : State) (v c : Byte) (e : CmdError),
    (s.irq = true ↔ s.status.done = true ∧ s.ie = true) ∧
    s.complete.irq = s.ie ∧ s.complete.status.done = true ∧
    (s.completeWithError e).irq = s.ie ∧ (s.completeWithError e).status.done = true ∧
    (v.getLsbD 1 = true → (s.windowWrite 0x0003 v).irq = false) ∧
    (s.windowWrite 0x0002 c).irq = false ∧ s.afterReset.irq = false

/-- R39, R77: writing `LEN_LO` and `LEN_HI` sets `LEN` to the little-endian 16-bit value, and both bytes read back. -/
def Obligations.LenIsLittleEndian : Prop :=
  ∀ (s : State) (lo hi : Byte),
    let t := (s.windowWrite 0x0008 lo).windowWrite 0x0009 hi
    t.len = hi.toNat * 256 + lo.toNat ∧ t.windowRead 0x0008 = lo ∧ t.windowRead 0x0009 = hi ∧
    t = { s with lenLo := lo, lenHi := hi }

/-- R72: what each address of the window reads. -/
def Obligations.WindowAddressMap : Prop :=
  ∀ s : State, s.params.wf = true →
    s.windowRead 0x0002 = s.cmd ∧ s.windowRead 0x0003 = s.statusByte ∧ s.windowRead 0x0004 = s.ctrlByte ∧
    s.windowRead 0x0005 = s.roundState ∧ s.windowRead 0x0006 = s.tag ∧
    s.windowRead 0x0008 = s.lenLo ∧ s.windowRead 0x0009 = s.lenHi ∧
    (∀ k, k < 16 → s.windowRead (BitVec.ofNat 16 (0x0010 + k)) = byteAt (s.bytes haRegion) k) ∧
    (∀ k, k < 16 → s.windowRead (BitVec.ofNat 16 (0x0020 + k)) = byteAt (s.bytes hbRegion) k) ∧
    (∀ k, k < 32 → s.windowRead (BitVec.ofNat 16 (0x0040 + k)) = byteAt (s.bytes pkeyRegion) k) ∧
    (∀ k, k < 32 → s.windowRead (BitVec.ofNat 16 (0x0060 + k)) = byteAt (s.bytes pubRegion) k) ∧
    (∀ k, k < 32 → s.windowRead (BitVec.ofNat 16 (0x0080 + k)) = byteAt (s.bytes sk32Region) k) ∧
    (∀ k, k < 256 → s.windowRead (BitVec.ofNat 16 (0x0100 + k)) = byteAt (s.bytes tblRegion) k) ∧
    (∀ k, k < s.params.bufSize →
      s.windowRead (BitVec.ofNat 16 (0x1000 + k)) = byteAt (s.bytes (bufRegion s.params.bufSize)) k)

/-- R72, R73: a write to a read/write byte stores it there, and every other address of the window reads as before. -/
def Obligations.WindowReadsBackWhatWasWritten : Prop :=
  ∀ (s : State) (a b : Addr) (v : Byte), Memory.wf s.mem →
    (a.toNat = 0x0005 ∨ a.toNat = 0x0006 ∨ a.toNat = 0x0008 ∨ a.toNat = 0x0009 ∨
      (0x0010 ≤ a.toNat ∧ a.toNat ≤ 0x002F) ∨ (0x0040 ≤ a.toNat ∧ a.toNat ≤ 0x009F) ∨
      (0x0100 ≤ a.toNat ∧ a.toNat ≤ 0x01FF) ∨ (0x1000 ≤ a.toNat ∧ a.toNat < 0x1000 + s.params.bufSize)) →
    (s.windowWrite a v).windowRead a = v ∧ (b ≠ a → (s.windowWrite a v).windowRead b = s.windowRead b)

/-- R74 with the ranges of R72: a reserved address reads 0x00, ignores writes and never stalls. -/
def Obligations.ReservedAddressesReadZeroAndIgnoreWrites : Prop :=
  ∀ (s : State) (a : Addr) (v : Byte), isReservedAddress s.params.bufSize a.toNat →
    s.windowRead a = 0x00 ∧ s.windowWrite a v = s ∧
    HostOp.exempt s.params.bufSize (.read a) = true ∧ HostOp.exempt s.params.bufSize (.write a v) = true

/-- R84: a read changes nothing but what the host has received; only writes to `CMD`, `STATUS` and `CTRL` touch the flags or the
engine; repeating a read returns the same value, and repeating a write leaves the same state, but for `CMD`, where each write issues a
command. -/
def Obligations.OnlyThreeWritesHaveSideEffects : Prop :=
  (∀ (s : State) (a : Addr) (rest : List HostOp),
    s.performHostOp (.read a) rest = { s with bus := rest, replies := s.windowRead a :: s.replies }) ∧
  (∀ (s : State) (a : Addr) (v : Byte), a ≠ 0x0002 → a ≠ 0x0003 → a ≠ 0x0004 →
    (s.windowWrite a v).status = s.status ∧ (s.windowWrite a v).flight = s.flight ∧
    (s.windowWrite a v).ie = s.ie ∧ (s.windowWrite a v).cmd = s.cmd) ∧
  (∀ (s : State) (a : Addr) (v : Byte), Memory.wf s.mem → a ≠ 0x0002 →
    (s.windowWrite a v).windowWrite a v = s.windowWrite a v) ∧
  (∀ (s : State) (a b : Addr) (rest : List HostOp), (s.performHostOp (.read a) rest).windowRead b = s.windowRead b) ∧
  (∀ (s : State) (c : Byte), ∃ n, (s.windowWrite 0x0002 c).flight = some { byte := c, left := n })

/-! ### Shared primitives -/

/-- R117: `byteMix` is `mixI` with the parity of its index. -/
def Obligations.ByteMixIsMixI : Prop :=
  ∀ (t : List Byte) (idx i : Nat) (v a b : Byte),
    byteMix t idx v = mixI idx (byteAt t idx) v ∧
    mixI i a b = (if i % 2 = 0 then ~~~(a ^^^ b) else a ^^^ b)

/-- R118: `byteMix` is an involution and a bijection for each table and index, and `mixI` is symmetric. -/
def Obligations.ByteMixLaws : Prop :=
  (∀ (t : List Byte) (idx : Nat) (v : Byte), byteMix t idx (byteMix t idx v) = v) ∧
  (∀ (t : List Byte) (idx : Nat), Function.Bijective (byteMix t idx)) ∧
  (∀ (i : Nat) (a b : Byte), mixI i a b = mixI i b a)

/-- R119: `popcount8` is the number of 1 bits, it is at most 8, and the count of a complement is 8 less the count. -/
def Obligations.PopcountOfComplement : Prop :=
  ∀ b : Byte, popcount8 b = ∑ k ∈ Finset.range 8, (if b.getLsbD k then 1 else 0) ∧
    popcount8 b ≤ 8 ∧ popcount8 (not8 b) = 8 - popcount8 b

/-- R170: a state selects the pattern `state mod 8`, patterns 0 and 7 are fixed, every pattern is a bijection, and the defaults are
those of the table, where `rotl8` rotates to the left: the operator of R10 for a count from 1 to 7, the identity for the count 0. -/
def Obligations.RotationPatterns : Prop :=
  ∀ (r : RotParam) (x : Byte),
    rotl8 x 0 = x ∧ (∀ k, 1 ≤ k → k ≤ 7 → rotl8 x k = ((x <<< k) ||| (x >>> (8 - k)))) ∧
    (pattern x).toNat = x.toNat % 8 ∧ swap2 x = (((x &&& 0x55) <<< 1) ||| ((x &&& 0xAA) >>> 1)) ∧
    rot r 0 x = x ∧ rot r 7 x = rotl8 x 3 ∧ (∀ p, Function.Bijective (rot r p)) ∧
    rot .defaults 1 x = swap2 (rotl8 x 2) ∧ rot .defaults 2 x = rotl8 x 1 ∧ rot .defaults 3 x = rotl8 x 4 ∧
    rot .defaults 4 x = rotl8 x 5 ∧ rot .defaults 5 x = rotl8 x 6 ∧ rot .defaults 6 x = rotl8 x 7

/-- R171: `UNROT[p]` is the inverse of `ROT[p]` for every parameter, and the defaults are those of the table. -/
def Obligations.UnrotInvertsRot : Prop :=
  (∀ (r : RotParam) (p : BitVec 3) (x : Byte), unrot r p (rot r p x) = x ∧ rot r p (unrot r p x) = x) ∧
  (∀ y : Byte,
    unrot .defaults 0 y = y ∧ unrot .defaults 1 y = rotl8 (swap2 y) 6 ∧ unrot .defaults 2 y = rotl8 y 7 ∧
    unrot .defaults 3 y = rotl8 y 4 ∧ unrot .defaults 4 y = rotl8 y 3 ∧ unrot .defaults 5 y = rotl8 y 2 ∧
    unrot .defaults 6 y = rotl8 y 1 ∧ unrot .defaults 7 y = rotl8 y 5)

/-- The consequence of R131: under `H16REF` two inputs of one length that differ only at position `p` give different values in every
slot `k` with `p + k` even. -/
def Obligations.ChangedByteReachesEverySecondHashSlot : Prop :=
  ∀ (xs ys : List Byte) (v w : Byte) (k : Nat), v ≠ w → k < 16 → (xs.length + k) % 2 = 0 →
    byteAt (hash16 .h16ref (xs ++ v :: ys)) k ≠ byteAt (hash16 .h16ref (xs ++ w :: ys)) k

/-! ### The commands -/

/-- R115: `NOP` succeeds for every `LEN` and changes nothing but the completion flags; from reset it leaves `STATUS` = 0x02. -/
def Obligations.NopOnlyCompletes : Prop :=
  decode 0x00 = .ok .nop ∧
  (∀ s : State, exec .nop s = .next (s.completedWith s.mem s.roundState s.tag)) ∧
  (∃ t, step (State.reset.withFetchWord 8 0x00) = .next t ∧ t.statusByte = 0x02 ∧
    t = { State.reset with status := { done := true, err := false, errcode := 0 } })

/-- R134: `HASH16A` writes `HASH16(BUF[0..LEN])` to `HA` and changes nothing else; `LEN > BUF_SIZE` is `LEN_RANGE`. -/
def Obligations.Hash16aHashesThePayloadIntoHA : Prop :=
  decode 0x01 = .ok .hash16a ∧ ∀ s : State, Memory.wf s.mem →
    (s.len ≤ s.params.bufSize → ∃ m,
      exec .hash16a s = .next (s.completedWith m s.roundState s.tag) ∧
      (∀ k, k < 16 → Memory.read m (0x0010 + k) = byteAt (hash16 s.params.hash s.payloadBytes) k) ∧
      s.agreesOutside m { base := 0x0010, size := 16 } ∧
      (s.len = 0 → ∀ k, k < 16 → Memory.read m (0x0010 + k) = byteAt (hash16 s.params.hash []) k) ∧
      (s.params.hash = .h16ref → s.payloadBytes = [0x61, 0x62, 0x63] → ∀ k, k < 16 → Memory.read m (0x0010 + k) =
        byteAt [0x27, 0x00, 0xC1, 0x84, 0x9B, 0xC8, 0x0D, 0x2C, 0xFF, 0x80, 0xF9, 0x54, 0x13, 0xF8, 0xF5, 0xCC] k)) ∧
    (s.params.bufSize < s.len → exec .hash16a s = .next (s.completeWithError .lenRange))

/-- R135: `HASH16B` writes `HASH16(BUF[0..LEN])` to `HB` and changes nothing else; `LEN > BUF_SIZE` is `LEN_RANGE`. -/
def Obligations.Hash16bHashesThePayloadIntoHB : Prop :=
  decode 0x11 = .ok .hash16b ∧ ∀ s : State, Memory.wf s.mem →
    (s.len ≤ s.params.bufSize → ∃ m,
      exec .hash16b s = .next (s.completedWith m s.roundState s.tag) ∧
      (∀ k, k < 16 → Memory.read m (0x0020 + k) = byteAt (hash16 s.params.hash s.payloadBytes) k) ∧
      s.agreesOutside m { base := 0x0020, size := 16 } ∧
      (s.len = 0 → ∀ k, k < 16 → Memory.read m (0x0020 + k) = byteAt (hash16 s.params.hash []) k) ∧
      (s.params.hash = .h16ref →
        s.payloadBytes = [0x65, 0x78, 0x61, 0x6D, 0x70, 0x6C, 0x65, 0x2E, 0x6F, 0x72, 0x67] →
        ∀ k, k < 16 → Memory.read m (0x0020 + k) =
          byteAt [0x8D, 0x94, 0x5B, 0x06, 0x49, 0xB0, 0xBF, 0xB2, 0x25, 0xDC, 0x83, 0x9E, 0x71, 0x48, 0x67, 0x1A] k)) ∧
    (s.params.bufSize < s.len → exec .hash16b s = .next (s.completeWithError .lenRange))

/-- R136: `MKPKEY` mixes `HA` and `HB` into the 32 bytes of `PKEY` and changes nothing else, whatever `LEN` is. -/
def Obligations.MkpkeyMixesBothHashes : Prop :=
  decode 0x02 = .ok .mkpkey ∧ ∀ s : State, Memory.wf s.mem → ∃ m,
    exec .mkpkey s = .next (s.completedWith m s.roundState s.tag) ∧
    (∀ i, i < 16 → Memory.read m (0x0040 + i) =
      (if i % 2 = 0 then not8 (s.byte (0x0010 + i) ^^^ s.byte (0x0020 + i))
        else s.byte (0x0010 + i) ^^^ s.byte (0x0020 + i))) ∧
    (∀ i, i < 16 → Memory.read m (0x0050 + i) =
      (if (15 - i) % 2 = 0 then not8 (s.byte (0x0020 + i) ^^^ s.byte (0x0010 + (15 - i)))
        else s.byte (0x0020 + i) ^^^ s.byte (0x0010 + (15 - i)))) ∧
    s.agreesOutside m { base := 0x0040, size := 32 } ∧
    ((∀ k, k < 16 → s.byte (0x0010 + k) = 0 ∧ s.byte (0x0020 + k) = 0) → ∀ k, k < 16 →
      Memory.read m (0x0040 + k) = (if k % 2 = 0 then 0xFF else 0x00) ∧
      Memory.read m (0x0050 + k) = (if k % 2 = 0 then 0x00 else 0xFF)) ∧
    (s.bytes { base := 0x0010, size := 16 } =
        [0x08, 0x4E, 0xC2, 0xDC, 0x5C, 0xA2, 0x66, 0xD8, 0xC0, 0x86, 0xCA, 0x54, 0x94, 0x9A, 0xDE, 0x00] →
      s.bytes { base := 0x0020, size := 16 } =
        [0x8D, 0x94, 0x5B, 0x06, 0x49, 0xB0, 0xBF, 0xB2, 0x25, 0xDC, 0x83, 0x9E, 0x71, 0x48, 0x67, 0x1A] →
      ∀ k, k < 32 → Memory.read m (0x0040 + k) = byteAt
        [0x7A, 0xDA, 0x66, 0xDA, 0xEA, 0x12, 0x26, 0x6A, 0x1A, 0x5A, 0xB6, 0xCA, 0x1A, 0xD2, 0x46, 0x1A,
         0x8D, 0xB5, 0xC1, 0x6D, 0x1D, 0x85, 0x39, 0x8D, 0xFD, 0x45, 0x21, 0x3D, 0xAD, 0x75, 0x29, 0xED] k)

/-- R137: `DERIVE` writes the 32 bytes of `SK32` from the hashes of `PKEY` and `PUB` and changes nothing else, whatever `LEN` is. -/
def Obligations.DeriveMixesHashesAndPublicKey : Prop :=
  decode 0x03 = .ok .derive ∧ ∀ s : State, Memory.wf s.mem → ∃ m,
    exec .derive s = .next (s.completedWith m s.roundState s.tag) ∧
    (let low := hash16 s.params.hash (s.bytes32 0x0040)
     let high := hash16 s.params.hash (s.bytes32 0x0060)
     ∀ i, i < 16 →
      Memory.read m (0x0080 + 2 * i) =
        (if i % 2 = 0 then not8 (byteAt low i ^^^ s.byte (0x0060 + 2 * i)) else byteAt low i ^^^ s.byte (0x0060 + 2 * i)) ∧
      Memory.read m (0x0080 + 2 * i + 1) =
        (if i % 2 = 0 then not8 (byteAt high i ^^^ byteAt low (15 - i)) else byteAt high i ^^^ byteAt low (15 - i))) ∧
    s.agreesOutside m { base := 0x0080, size := 32 } ∧
    (s.params.hash = .h16ref → s.bytes32 0x0040 = List.replicate 32 0x00 → s.bytes32 0x0060 = List.replicate 32 0x00 →
      ∀ k, k < 32 → Memory.read m (0x0080 + k) = byteAt
        [0xA5, 0xF8, 0xE7, 0x47, 0x1B, 0x98, 0x81, 0x97, 0x31, 0xB8, 0xFB, 0x77, 0x67, 0x88, 0x55, 0xB7,
         0x1D, 0x48, 0xEF, 0x77, 0x73, 0x88, 0x89, 0x47, 0xE9, 0x68, 0x83, 0x67, 0x5F, 0xB8, 0x5D, 0x07] k) ∧
    hash16 .h16ref (List.replicate 32 0x00) =
      [0x5A, 0xE7, 0xE4, 0x81, 0xCE, 0xFB, 0x98, 0x55, 0xE2, 0xEF, 0x8C, 0x89, 0x16, 0x83, 0xA0, 0x5D]

/-- R150: `EXPAND` writes slice `k` of `TBL` as the hash of the little-endian bytes of the accumulator after `k + 1` steps, wipes `SK32`
and changes nothing else, whatever `LEN` is; with the corner cases and the example of the rule. -/
def Obligations.ExpandHashesTheRunningAccumulator : Prop :=
  decode 0x04 = .ok .expand ∧ ∀ s : State, Memory.wf s.mem → ∃ m,
    exec .expand s = .next (s.completedWith m s.roundState s.tag) ∧
    (∀ k j, k < 16 → j < 16 → Memory.read m (0x0100 + 16 * k + j) =
      byteAt (hash16 s.params.hash (wordBytes (expandAccAt (fun x => s.byte (0x0080 + x)) (k + 1)))) j) ∧
    (∀ x, x < 32 → Memory.read m (0x0080 + x) = 0x00) ∧
    (∀ a, Region.holds { base := 0x0100, size := 256 } a = false → Region.holds { base := 0x0080, size := 32 } a = false →
      Memory.read m a = s.byte a) ∧
    ((∀ k, k < 16 → s.byte (0x0080 + 2 * k) = s.byte (0x0080 + 2 * k + 1)) → ∀ k j, k < 16 → j < 16 →
      expandAccAt (fun x => s.byte (0x0080 + x)) (k + 1) = (if k % 2 = 0 then 0x000000FF else 0x00000000) ∧
      Memory.read m (0x0100 + 16 * k + j) = byteAt (hash16 s.params.hash [if k % 2 = 0 then 0xFF else 0x00, 0, 0, 0]) j) ∧
    ((∀ k, k < 16 → s.byte (0x0080 + 2 * k) ^^^ s.byte (0x0080 + 2 * k + 1) = 0xFF) → ∀ k j, k < 16 → j < 16 →
      expandAccAt (fun x => s.byte (0x0080 + x)) (k + 1) = 0x00000000 ∧
      Memory.read m (0x0100 + 16 * k + j) = byteAt (hash16 s.params.hash [0, 0, 0, 0]) j) ∧
    (∀ k q, k < 16 → q = (not8 (s.byte (0x0080 + 2 * k) ^^^ s.byte (0x0080 + (2 * k + 1)))).toNat →
      ∀ n, n = (expandAccAt (fun x => s.byte (0x0080 + x)) k).toNat → n % 2 = 1 → n < q →
      (expandAccAt (fun x => s.byte (0x0080 + x)) (k + 1)).toNat = 2 ^ 32 + n - q) ∧
    (s.params.hash = .h16ref → s.bytes32 0x0080 = List.replicate 32 0x00 → ∀ j, j < 16 →
      Memory.read m (0x0100 + j) =
        byteAt [0x39, 0x7E, 0x91, 0x12, 0xE1, 0xAE, 0x81, 0x62, 0x89, 0x7E, 0x71, 0xC2, 0x71, 0x5E, 0x21, 0x82] j ∧
      Memory.read m (0x0110 + j) =
        byteAt [0x14, 0x79, 0x78, 0x13, 0x3C, 0xA5, 0x30, 0x67, 0x34, 0x61, 0x98, 0xAB, 0x8C, 0x4D, 0x00, 0x8F] j ∧
      ∀ b, b < 8 → Memory.read m (0x0100 + 32 * b + j) = Memory.read m (0x0100 + j) ∧
        Memory.read m (0x0110 + 32 * b + j) = Memory.read m (0x0110 + j))

/-- R151: the table `EXPAND` writes depends on `SK32` only through the XORs of its pairs. -/
def Obligations.ExpandDependsOnPairXorsOnly : Prop :=
  ∀ s s' t t' : State, Memory.wf s.mem → Memory.wf s'.mem → s.params.hash = s'.params.hash →
    (∀ k, k < 16 → s.byte (0x0080 + 2 * k) ^^^ s.byte (0x0080 + 2 * k + 1) =
      s'.byte (0x0080 + 2 * k) ^^^ s'.byte (0x0080 + 2 * k + 1)) →
    exec .expand s = .next t → exec .expand s' = .next t' →
    ∀ a, 0x0100 ≤ a → a < 0x0200 → t.byte a = t'.byte a

/-- R160: `STEPTAG` writes the tag of the walk sum and the key sum to `TAG` and changes nothing else; the key sum is 32 to 256;
`LEN > BUF_SIZE` is `LEN_RANGE`; with the corner cases and the example of the rule. -/
def Obligations.SteptagSumsTheWalkAndTheKey : Prop :=
  decode 0x05 = .ok .steptag ∧ ∀ s : State,
    let buf := fun i => s.byte (0x1000 + i)
    let key := fun x => s.byte (0x0040 + x)
    let acc := walkSum s.len (strideOf s.len buf key) buf % 256
    let ks := keySumOf key
    let tag := not8 (if acc % 2 = 0 then BitVec.ofNat 8 (acc + ks) else BitVec.ofNat 8 (256 + acc - ks % 256))
    (32 ≤ ks ∧ ks ≤ 256) ∧
    (s.len ≤ s.params.bufSize → exec .steptag s = .next (s.completedWith s.mem s.roundState tag)) ∧
    (s.params.bufSize < s.len → exec .steptag s = .next (s.completeWithError .lenRange)) ∧
    (s.len = 0 → tag = not8 (BitVec.ofNat 8 ks)) ∧
    (s.len = 1 → strideOf s.len buf key = (key ((buf 0).toNat % 32)).toNat % 4 + 1) ∧
    ((∀ x, x < 32 → key x = 0x00) ∨ (∀ x, x < 32 → key x = 0xFF) → ks = 256 ∧ tag = not8 (BitVec.ofNat 8 acc)) ∧
    ((∀ x, x < 32 → key x = BitVec.ofNat 8 x) → s.len = 3 → buf 0 = 0x00 → buf 1 = 0x03 → buf 2 = 0x00 →
      strideOf s.len buf key = 4 ∧ acc = 8 ∧ ks = 144 ∧ tag = 0x67)

/-- R161: `TAG` depends on `LEN`, on the bytes of `BUF` that the walk visits and `BUF[mid]`, and on `PKEY`, and on nothing else. -/
def Obligations.TagDependsOnVisitedBytesOnly : Prop :=
  ∀ s s' t t' : State, s.params.bufSize = s'.params.bufSize → s.len = s'.len → s.len ≤ s.params.bufSize →
    (∀ x, x < 32 → s.byte (0x0040 + x) = s'.byte (0x0040 + x)) →
    (0 < s.len → s.byte (0x1000 + s.len / 2) = s'.byte (0x1000 + s.len / 2)) →
    (∀ i, i < s.len →
      i % strideOf s.len (fun i => s.byte (0x1000 + i)) (fun x => s.byte (0x0040 + x)) = 0 →
      s.byte (0x1000 + i) = s'.byte (0x1000 + i)) →
    exec .steptag s = .next t → exec .steptag s' = .next t' → t.tag = t'.tag

/-- The loop of R173, index by index: `MIXTABLE` rewrites every entry of `TBL` under the evolving state, leaves the final state in
`STATE` and changes nothing else, whatever `LEN` is; with the example of the rule. -/
def Obligations.MixtableRewritesEveryEntry : Prop :=
  decode 0x06 = .ok .mixtable ∧ ∀ s : State, Memory.wf s.mem → ∃ m,
    let tbl := fun i => s.byte (0x0100 + i)
    let pub := fun x => s.byte (0x0060 + x)
    exec .mixtable s = .next (s.completedWith m (mixStateAt s.roundState tbl 256) s.tag) ∧
    (∀ i, i < 256 → Memory.read m (0x0100 + i) =
      rot s.params.rot ((mixStateAt s.roundState tbl (i + 1) &&& 7).setWidth 3)
        (if i % 2 = 0 then not8 (tbl i ^^^ pub (i % 32)) else tbl i ^^^ pub (i % 32))) ∧
    s.agreesOutside m { base := 0x0100, size := 256 } ∧
    (s.params.rot = .defaults → (∀ i, i < 256 → tbl i = BitVec.ofNat 8 (7 * i + 3)) →
      (∀ x, x < 32 → pub x = BitVec.ofNat 8 (0x11 * x + 7)) → s.roundState = 0x13 →
      (∀ i, i < 8 → Memory.read m (0x0100 + i) = byteAt [0xDF, 0x84, 0x7C, 0x22, 0xBA, 0x9E, 0xFD, 0xA4] i) ∧
      mixStateAt s.roundState tbl 256 = 0x13)

/-- R174: `ENCRYPT` transforms `BUF[0..LEN]` in place under the evolving state, leaves the final state in `STATE` and changes nothing
else; `LEN` = 0 changes neither; `LEN > BUF_SIZE` is `LEN_RANGE`; with the example of the rule. -/
def Obligations.EncryptTransformsThePayload : Prop :=
  decode 0x07 = .ok .encrypt ∧ ∀ s : State, Memory.wf s.mem →
    (s.len ≤ s.params.bufSize → ∃ m,
      let tbl := fun i => s.byte (0x0100 + i)
      exec .encrypt s = .next (s.completedWith m (payloadStateAt s.roundState tbl s.len) s.tag) ∧
      (∀ i, i < s.len → Memory.read m (0x1000 + i) =
        rot s.params.rot ((payloadStateAt s.roundState tbl (i + 1) &&& 7).setWidth 3)
          (if i % 256 % 2 = 0 then not8 (s.byte (0x1000 + i) ^^^ tbl (i % 256))
            else s.byte (0x1000 + i) ^^^ tbl (i % 256))) ∧
      s.agreesOutside m { base := 0x1000, size := s.len } ∧
      (s.len = 0 → m = s.mem ∧ payloadStateAt s.roundState tbl s.len = s.roundState) ∧
      (s.params.rot = .defaults → (∀ i, i < 256 → tbl i = BitVec.ofNat 8 (7 * i + 3)) → s.roundState = 0x5A →
        s.payloadBytes = [0x00, 0x11, 0x22, 0x33] →
        (∀ i, i < 4 → Memory.read m (0x1000 + i) = byteAt [0x7E, 0x63, 0x99, 0x56] i ∧
          payloadStateAt s.roundState tbl (i + 1) = byteAt [0xA6, 0xAC, 0x42, 0x5A] i) ∧
        payloadStateAt s.roundState tbl s.len = 0x5A)) ∧
    (s.params.bufSize < s.len → exec .encrypt s = .next (s.completeWithError .lenRange))

/-- R175: `DECRYPT` transforms `BUF[0..LEN]` in place by the inverse pattern and then `byteMix`, under the same evolving state as
`ENCRYPT`, and changes nothing else; errors and corner cases as for `ENCRYPT`; with the example of the rule. -/
def Obligations.DecryptTransformsThePayload : Prop :=
  decode 0x17 = .ok .decrypt ∧ ∀ s : State, Memory.wf s.mem →
    (s.len ≤ s.params.bufSize → ∃ m,
      let tbl := fun i => s.byte (0x0100 + i)
      exec .decrypt s = .next (s.completedWith m (payloadStateAt s.roundState tbl s.len) s.tag) ∧
      (∀ i, i < s.len → Memory.read m (0x1000 + i) =
        (let x := unrot s.params.rot ((payloadStateAt s.roundState tbl (i + 1) &&& 7).setWidth 3) (s.byte (0x1000 + i))
         if i % 256 % 2 = 0 then not8 (x ^^^ tbl (i % 256)) else x ^^^ tbl (i % 256))) ∧
      s.agreesOutside m { base := 0x1000, size := s.len } ∧
      (s.len = 0 → m = s.mem ∧ payloadStateAt s.roundState tbl s.len = s.roundState) ∧
      (s.params.rot = .defaults → (∀ i, i < 256 → tbl i = BitVec.ofNat 8 (7 * i + 3)) → s.roundState = 0x5A →
        s.payloadBytes = [0x7E, 0x63, 0x99, 0x56] →
        (∀ i, i < 4 → Memory.read m (0x1000 + i) = byteAt [0x00, 0x11, 0x22, 0x33] i) ∧
        payloadStateAt s.roundState tbl s.len = 0x5A)) ∧
    (s.params.bufSize < s.len → exec .decrypt s = .next (s.completeWithError .lenRange))

/-- R172: after its update the state of `MIXTABLE` is odd and that of the payload pass even, so `MIXTABLE` uses only the odd patterns
and `ENCRYPT` and `DECRYPT` only the even ones: no result depends on the others. -/
def Obligations.PolarityFixesThePatternsUsed : Prop :=
  (∀ (seed : Byte) (tbl : Nat → Byte) (i : Nat),
    (mixStateAt seed tbl (i + 1)).getLsbD 0 = true ∧ (payloadStateAt seed tbl (i + 1)).getLsbD 0 = false) ∧
  (∀ (s : State) (r : RotParam), (∀ p : BitVec 3, p.getLsbD 0 = true → ∀ x, rot r p x = rot s.params.rot p x) →
    ∃ t t', exec .mixtable s = .next t ∧
      exec .mixtable { s with params := { s.params with rot := r } } = .next t' ∧
      t'.mem = t.mem ∧ t'.roundState = t.roundState) ∧
  (∀ (s : State) (r : RotParam), (∀ p : BitVec 3, p.getLsbD 0 = false → ∀ x, rot r p x = rot s.params.rot p x) →
    ∃ t t', exec .encrypt s = .next t ∧
      exec .encrypt { s with params := { s.params with rot := r } } = .next t' ∧
      t'.mem = t.mem ∧ t'.roundState = t.roundState) ∧
  (∀ (s : State) (r : RotParam), (∀ p : BitVec 3, p.getLsbD 0 = false → ∀ x, unrot r p x = unrot s.params.rot p x) →
    ∃ t t', exec .decrypt s = .next t ∧
      exec .decrypt { s with params := { s.params with rot := r } } = .next t' ∧
      t'.mem = t.mem ∧ t'.roundState = t.roundState)

/-- R176: `DECRYPT` from the same initial state and table turns what `ENCRYPT` made back into the original, and both leave the same
final `STATE`. -/
def Obligations.DecryptInvertsEncrypt : Prop :=
  ∀ s : State, Memory.wf s.mem → s.len ≤ s.params.bufSize →
    ∃ t u, exec .encrypt s = .next t ∧ exec .decrypt { t with roundState := s.roundState } = .next u ∧
      u.mem = s.mem ∧ u.roundState = t.roundState

/-- R177: the states of `ENCRYPT` and `DECRYPT` do not depend on `BUF`: from the same initial state, table and length they end with the
same `STATE`. -/
def Obligations.PayloadStatesDoNotDependOnTheBuffer : Prop :=
  ∀ s s' : State, s.len ≤ s.params.bufSize → s'.len ≤ s'.params.bufSize → s.len = s'.len →
    s.roundState = s'.roundState → (∀ i, i < 256 → s.byte (0x0100 + i) = s'.byte (0x0100 + i)) →
    ∃ t u, exec .encrypt s = .next t ∧ exec .decrypt s' = .next u ∧ t.roundState = u.roundState ∧
      t.roundState = payloadStateAt s.roundState (fun i => s.byte (0x0100 + i)) s.len

/-- R239: encrypting a payload in two commands, with `STATE` carried over, equals encrypting it in one for every second part, table and
state exactly when the length of the first part is a multiple of 256; and the same for decrypting. The last two clauses say that the
two commands compute these passes over `BUF[0..LEN]`. -/
def Obligations.SplitAtMultiplesOf256 : Prop :=
  (∀ (r : RotParam) (p1 : List Byte),
    ((∀ (tbl : List Byte) (s : Byte) (p2 : List Byte), tbl.length = 256 →
        (let a := encryptPass r tbl 0 s p1
         let b := encryptPass r tbl 0 a.2 p2
         encryptPass r tbl 0 s (p1 ++ p2) = (a.1 ++ b.1, b.2))) ↔ p1.length % 256 = 0) ∧
    ((∀ (tbl : List Byte) (s : Byte) (p2 : List Byte), tbl.length = 256 →
        (let a := decryptPass r tbl 0 s p1
         let b := decryptPass r tbl 0 a.2 p2
         decryptPass r tbl 0 s (p1 ++ p2) = (a.1 ++ b.1, b.2))) ↔ p1.length % 256 = 0)) ∧
  (∀ s : State, Memory.wf s.mem → s.len ≤ s.params.bufSize → ∃ t, exec .encrypt s = .next t ∧
    (t.payloadBytes, t.roundState) = encryptPass s.params.rot (s.bytes tblRegion) 0 s.roundState s.payloadBytes) ∧
  (∀ s : State, Memory.wf s.mem → s.len ≤ s.params.bufSize → ∃ t, exec .decrypt s = .next t ∧
    (t.payloadBytes, t.roundState) = decryptPass s.params.rot (s.bytes tblRegion) 0 s.roundState s.payloadBytes)

/-! ### The host's side -/

/-- R97: the transaction word of a read and of a write, field by field; reading a word back gives the transaction, and only its own word;
a `CHK` is its `RD`; and the two examples of the rule. -/
def Obligations.TransactionWordsRoundTrip : Prop :=
  (∀ a : Addr, HostOp.toWord (.read a) = some (BitVec.ofNat 32 (a.toNat * 2 ^ 8))) ∧
  (∀ (a : Addr) (v : Byte), HostOp.toWord (.write a v) = some (BitVec.ofNat 32 (2 ^ 31 + a.toNat * 2 ^ 8 + v.toNat))) ∧
  (∀ (op : HostOp) (w : BitVec 32), op.toWord = some w → transactionOf w = .ok op) ∧
  (∀ (op : HostOp) (w : BitVec 32), transactionOf w = .ok op → op.toWord = some w) ∧
  (∀ (a : Addr) (v : Byte), Pseudo.expand (.chk a v) = Pseudo.expand (.rd a)) ∧
  HostOp.toWord (.write 0x0002 0x06) = some 0x80000206 ∧ HostOp.toWord (.read 0x0003) = some 0x00000300

/-- R232: the layout of a frame, and the host's parse of it, which gives back the tag, the public key and the ciphertext for every random
byte. An empty ciphertext makes a frame of 34 bytes, which the host refuses (R194, 90_conflicts.md C2). -/
def Obligations.FrameParsesBack : Prop :=
  ∀ (r tag : Byte) (pub cipher : List Byte), pub.length = 32 →
    let tag7 := tag &&& 0x7F
    let frame := buildFrame r tag7 pub cipher
    (frame.length = 34 + cipher.length ∧ byteAt frame 0 = r ∧ byteAt frame 1 = not8 (tag7 ^^^ r) ∧
      not8 (byteAt frame 1 ^^^ byteAt frame 0) &&& 0x7F = tag7 ∧
      (frame.drop 2).take 32 = pub ∧ frame.drop 34 = cipher) ∧
    (cipher ≠ [] → parseFrame frame = .ok { tag7 := tag7, pub := pub, cipher := cipher }) ∧
    (cipher = [] → parseFrame frame = .error .formatError)

/-- The pipelines of R234 and R235 as the commands that they issue: what the encode sequence leaves in `BUF`, the decode sequence turns
back into the payload on any block with the same parameters, pass key and public key, and the tags agree. The host's writes between
the commands (the seed, the buffer, the length) are written out as the state updates they are. -/
def Obligations.DecodeSequenceRecoversThePayload : Prop :=
  ∀ s d : State, Memory.wf s.mem → Memory.wf d.mem → s.len ≤ s.params.bufSize →
    d.params.bufSize = s.params.bufSize → d.params.hash = s.params.hash → d.params.rot = s.params.rot → d.len = s.len →
    d.bytes32 0x0040 = s.bytes32 0x0040 → d.bytes32 0x0060 = s.bytes32 0x0060 →
    ∃ s1 s2 s3 s4 s5 d1 d2 d3 d4 d5 : State,
      (exec .derive s = .next s1 ∧ exec .expand s1 = .next s2 ∧ exec .steptag s2 = .next s3 ∧
        exec .mixtable (s3.setRoundState (s3.tag &&& 0x7F)) = .next s4 ∧ exec .encrypt s4 = .next s5) ∧
      (exec .derive d = .next d1 ∧ exec .expand d1 = .next d2 ∧
        exec .mixtable (d2.setRoundState (s3.tag &&& 0x7F)) = .next d3 ∧
        exec .decrypt (d3.setBytes (bufRegion d3.len) s5.payloadBytes) = .next d4 ∧ exec .steptag d4 = .next d5) ∧
      d5.payloadBytes = s.payloadBytes ∧ d5.tag = s3.tag ∧ d5.roundState = s5.roundState

/-! ### Beside the statements above -/

/-- R221 and R78 in a command's last cycle (`left` = 0), where the model gives the host no access (log entry 6, DESIGN CHOICE): the
soft reset stands in the host's queue while the command completes, and performs in the step after it. -/
def Obligations.SoftResetInTheLastCycle : Prop :=
  ∀ (s : State) (c v : Byte) (rest : List HostOp),
    s.flight = some { byte := c, left := 0 } → s.resetIn = [] → s.bus = .write 0x0004 v :: rest → v.getLsbD 1 = true →
    ∃ u, step s = .next u ∧ runCommand c s = .next u ∧ u.bus = s.bus ∧
      step u = .next { State.reset with params := s.params, bus := rest, replies := s.replies }

/-- R130, its properties (b), (c) and (d), under every instantiation of `HASH16`: the hash of an input and one more byte depends only on
the hash of the input, on its length and on the byte, the result is 16 bytes, and the empty input gives the constant table, which is
`SEED` for `H16REF` (R131). That the pass keeps nothing but the 16 bytes is the model's reading (log entry 2). -/
def Obligations.HashIsASinglePass : Prop :=
  (∀ (h : HashParam) (input : List Byte), (hash16 h input).length = 16) ∧
  (∀ h : HashParam, ∃ update : Nat → Byte → List Byte → List Byte, ∀ (xs : List Byte) (v : Byte),
    hash16 h (xs ++ [v]) = update xs.length v (hash16 h xs)) ∧
  (∀ n : Nat, hash16 (.opened n) [] = (Config.openHashTable n).toList) ∧
  hash16 .h16ref [] =
    [0x5A, 0x77, 0x94, 0xB1, 0xCE, 0xEB, 0x08, 0x25, 0x42, 0x5F, 0x7C, 0x99, 0xB6, 0xD3, 0xF0, 0x0D]
end

