-- ==== Sys2Proof/Laws/Memory.lean ====
section
/-! SUPPORT. The laws of the sparse memory: what a read gives after a write, that every write keeps the canonical form, and that
two canonical memories with the same reads are equal. -/

namespace Sys2Proof.Machine

@[simp] theorem Memory.read_nil (k : Nat) : Memory.read [] k = Memory.unlisted := rfl

theorem Memory.read_cons (a : Nat) (b : Byte) (m : List Host.Cell) (k : Nat) :
    Memory.read ((a, b) :: m) k = if k = a then b else Memory.read m k := rfl

theorem Memory.wf_nil : Memory.wf [] := by simp [Memory.wf]

theorem Memory.wf_cons {a : Nat} {b : Byte} {m : List Host.Cell} :
    Memory.wf ((a, b) :: m) ↔ (∀ c ∈ m, a < c.1) ∧ b ≠ Memory.unlisted ∧ Memory.wf m := by
  simp only [Memory.wf, List.pairwise_cons, List.forall_mem_cons]
  tauto

theorem Memory.wf_tail {c : Host.Cell} {m : List Host.Cell} (h : Memory.wf (c :: m)) : Memory.wf m :=
  (Memory.wf_cons.mp h).2.2

/-- An address below every listed one reads as unlisted. -/
theorem Memory.read_of_lt {m : List Host.Cell} {k : Nat} (h : ∀ c ∈ m, k < c.1) : Memory.read m k = Memory.unlisted := by
  induction m with
  | nil => rfl
  | cons c m ih =>
    obtain ⟨a, b⟩ := c
    have hk : k < a := h (a, b) (by simp)
    rw [Memory.read_cons, if_neg (by omega)]
    exact ih fun c hc => h c (by simp [hc])

/-- A listed address of a canonical memory reads as its byte, which is not the unlisted one. -/
theorem Memory.read_of_mem {m : List Host.Cell} (h : Memory.wf m) {c : Host.Cell} (hc : c ∈ m) :
    Memory.read m c.1 = c.2 := by
  induction m with
  | nil => simp at hc
  | cons d m ih =>
    obtain ⟨a, b⟩ := d
    rw [Memory.read_cons]
    rcases List.mem_cons.mp hc with rfl | hm
    · simp
    · have := (Memory.wf_cons.mp h).1 c hm
      rw [if_neg (by omega)]
      exact ih (Memory.wf_tail h) hm

theorem Memory.mem_of_read {m : List Host.Cell} {k : Nat} (h : Memory.read m k ≠ Memory.unlisted) :
    (k, Memory.read m k) ∈ m := by
  induction m with
  | nil => simp at h
  | cons d m ih =>
    obtain ⟨a, b⟩ := d
    rw [Memory.read_cons] at h ⊢
    by_cases hk : k = a
    · simp [hk]
    · rw [if_neg hk] at h ⊢
      exact List.mem_cons_of_mem _ (ih h)

/-- A write adds no address but its own. -/
theorem Memory.mem_write {m : List Host.Cell} {k : Nat} {v : Byte} {c : Host.Cell} (h : c ∈ Memory.write m k v) :
    c = (k, v) ∧ v ≠ Memory.unlisted ∨ c ∈ m := by
  induction m with
  | nil =>
    rw [Memory.write] at h
    split at h
    · simp at h
    · rename_i hv; left; exact ⟨by simpa using h, hv⟩
  | cons d m ih =>
    obtain ⟨a, b⟩ := d
    rw [Memory.write] at h
    split at h
    · split at h
      · exact .inr h
      · rename_i hv
        rcases List.mem_cons.mp h with rfl | h
        · exact .inl ⟨rfl, hv⟩
        · exact .inr h
    · split at h
      · split at h
        · exact .inr (List.mem_cons_of_mem _ h)
        · rename_i hv
          rcases List.mem_cons.mp h with rfl | h
          · exact .inl ⟨rfl, hv⟩
          · exact .inr (List.mem_cons_of_mem _ h)
      · rcases List.mem_cons.mp h with rfl | h
        · exact .inr (by simp)
        · rcases ih h with h | h
          · exact .inl h
          · exact .inr (List.mem_cons_of_mem _ h)

/-- A write keeps the canonical form. -/
theorem Memory.write_wf {m : List Host.Cell} (h : Memory.wf m) (k : Nat) (v : Byte) : Memory.wf (Memory.write m k v) := by
  induction m with
  | nil =>
    rw [Memory.write]
    split
    · exact Memory.wf_nil
    · rename_i hv; exact Memory.wf_cons.mpr ⟨by simp, hv, Memory.wf_nil⟩
  | cons d m ih =>
    obtain ⟨a, b⟩ := d
    have hc := Memory.wf_cons.mp h
    rw [Memory.write]
    split
    · rename_i hk
      split
      · exact h
      · rename_i hv
        refine Memory.wf_cons.mpr ⟨fun c hm => ?_, hv, h⟩
        rcases List.mem_cons.mp hm with rfl | hm
        · exact hk
        · exact hk.trans (hc.1 c hm)
    · split
      · rename_i hk
        split
        · exact hc.2.2
        · rename_i hv
          exact Memory.wf_cons.mpr ⟨fun c hm => hk ▸ hc.1 c hm, hv, hc.2.2⟩
      · refine Memory.wf_cons.mpr ⟨fun c hm => ?_, hc.2.1, ih hc.2.2⟩
        rcases Memory.mem_write hm with ⟨rfl, -⟩ | hm
        · show a < k
          omega
        · exact hc.1 c hm

/-- A read at another address than the one written. -/
theorem Memory.read_write_ne (m : List Host.Cell) {j k : Nat} (v : Byte) (h : j ≠ k) :
    Memory.read (Memory.write m k v) j = Memory.read m j := by
  induction m with
  | nil =>
    rw [Memory.write]
    split
    · rfl
    · rw [Memory.read_cons, if_neg h]
  | cons d m ih =>
    obtain ⟨a, b⟩ := d
    rw [Memory.write]
    split
    · split
      · rfl
      · rw [Memory.read_cons, if_neg h]
    · split
      · rename_i hk
        split
        · rw [Memory.read_cons, if_neg (hk ▸ h)]
        · rw [Memory.read_cons, if_neg h, Memory.read_cons, if_neg (hk ▸ h)]
      · rw [Memory.read_cons, Memory.read_cons, ih]

/-- A read of the address just written. -/
theorem Memory.read_write_same {m : List Host.Cell} (h : Memory.wf m) (k : Nat) (v : Byte) :
    Memory.read (Memory.write m k v) k = v := by
  induction m with
  | nil =>
    rw [Memory.write]
    split
    · rename_i hv; exact hv.symm
    · simp [Memory.read_cons]
  | cons d m ih =>
    obtain ⟨a, b⟩ := d
    have hc := Memory.wf_cons.mp h
    rw [Memory.write]
    split
    · rename_i hk
      split
      · rename_i hv
        rw [hv]
        refine Memory.read_of_lt fun c hm => ?_
        rcases List.mem_cons.mp hm with rfl | hm
        · exact hk
        · exact hk.trans (hc.1 c hm)
      · simp [Memory.read_cons]
    · split
      · rename_i hk
        split
        · rename_i hv
          rw [hv]
          exact Memory.read_of_lt fun c hm => hk ▸ hc.1 c hm
        · simp [Memory.read_cons]
      · rename_i hk
        rw [Memory.read_cons, if_neg hk, ih hc.2.2]

/-- Canonical memories with the same reads are the same list. -/
theorem Memory.ext_read {m m' : List Host.Cell} (h : Memory.wf m) (h' : Memory.wf m')
    (hr : ∀ k, Memory.read m k = Memory.read m' k) : m = m' := by
  induction m generalizing m' with
  | nil =>
    cases m' with
    | nil => rfl
    | cons c m' =>
      have h1 := Memory.read_of_mem h' (c := c) (by simp)
      have h2 := h'.2 c (by simp)
      rw [← hr, Memory.read_nil] at h1
      exact absurd h1.symm h2
  | cons d m ih =>
    obtain ⟨a, b⟩ := d
    have hc := Memory.wf_cons.mp h
    cases m' with
    | nil =>
      have h1 := Memory.read_of_mem h (c := (a, b)) (by simp)
      rw [hr, Memory.read_nil] at h1
      exact absurd h1.symm hc.2.1
    | cons d' m' =>
      obtain ⟨a', b'⟩ := d'
      have hc' := Memory.wf_cons.mp h'
      have haa : a = a' := by
        rcases Nat.lt_trichotomy a a' with hlt | heq | hgt
        · have h1 : Memory.read ((a', b') :: m') a = Memory.unlisted :=
            Memory.read_of_lt fun c hm => by
              rcases List.mem_cons.mp hm with rfl | hm
              · exact hlt
              · exact hlt.trans (hc'.1 c hm)
          have h2 := hr a
          rw [h1, Memory.read_cons, if_pos rfl] at h2
          exact absurd h2 hc.2.1
        · exact heq
        · have h1 : Memory.read ((a, b) :: m) a' = Memory.unlisted :=
            Memory.read_of_lt fun c hm => by
              rcases List.mem_cons.mp hm with rfl | hm
              · exact hgt
              · exact hgt.trans (hc.1 c hm)
          have h2 := hr a'
          rw [h1, Memory.read_cons, if_pos rfl] at h2
          exact absurd h2.symm hc'.2.1
      subst haa
      have hbb : b = b' := by simpa [Memory.read_cons] using hr a
      subst hbb
      rw [ih hc.2.2 hc'.2.2 fun k => ?_]
      by_cases hk : k = a
      · subst hk
        rw [Memory.read_of_lt hc.1, Memory.read_of_lt hc'.1]
      · simpa [Memory.read_cons, hk] using hr k

/-! ### Blocks -/

theorem Memory.writeBlock_wf {m : List Host.Cell} (h : Memory.wf m) (k : Nat) (bs : List Byte) :
    Memory.wf (Memory.writeBlock m k bs) := by
  induction bs generalizing m k with
  | nil => exact h
  | cons b bs ih => exact ih (Memory.write_wf h k b) (k + 1)

/-- A block write adds no address outside its block. -/
theorem Memory.mem_writeBlock {m : List Host.Cell} {k : Nat} {bs : List Byte} {c : Host.Cell}
    (h : c ∈ Memory.writeBlock m k bs) : (k ≤ c.1 ∧ c.1 < k + bs.length) ∨ c ∈ m := by
  induction bs generalizing m k with
  | nil => exact .inr h
  | cons b bs ih =>
    simp only [List.length_cons]
    rcases ih h with h | h
    · exact .inl (by omega)
    · rcases Memory.mem_write h with ⟨rfl, -⟩ | h
      · exact .inl ⟨Nat.le_refl _, by omega⟩
      · exact .inr h

/-- A read outside the block written. -/
theorem Memory.read_writeBlock_outside (m : List Host.Cell) {j k : Nat} (bs : List Byte)
    (h : j < k ∨ k + bs.length ≤ j) : Memory.read (Memory.writeBlock m k bs) j = Memory.read m j := by
  induction bs generalizing m k with
  | nil => rfl
  | cons b bs ih =>
    simp only [List.length_cons] at h
    rw [Memory.writeBlock, ih _ (by omega), Memory.read_write_ne m b (by omega)]

/-- A read inside the block written. -/
theorem Memory.read_writeBlock_inside {m : List Host.Cell} (h : Memory.wf m) (k : Nat) {bs : List Byte} {i : Nat}
    (hi : i < bs.length) : Memory.read (Memory.writeBlock m k bs) (k + i) = byteAt bs i := by
  induction bs generalizing m k i with
  | nil => simp at hi
  | cons b bs ih =>
    rw [Memory.writeBlock]
    cases i with
    | zero =>
      show Memory.read (Memory.writeBlock (Memory.write m k b) (k + 1) bs) k = b
      rw [Memory.read_writeBlock_outside _ bs (by omega), Memory.read_write_same h]
    | succ i =>
      have := ih (Memory.write_wf h k b) (k + 1) (i := i) (by simpa using hi)
      rw [show k + (i + 1) = k + 1 + i by omega, this]
      simp [byteAt]

@[simp] theorem Memory.readBlock_length (m : List Host.Cell) (k n : Nat) : (Memory.readBlock m k n).length = n := by
  induction n generalizing k with
  | zero => rfl
  | succ n ih => simp [Memory.readBlock, ih]

/-- The bytes of a block, by index. -/
theorem Memory.byteAt_readBlock (m : List Host.Cell) (k : Nat) {n i : Nat} (hi : i < n) :
    byteAt (Memory.readBlock m k n) i = Memory.read m (k + i) := by
  induction n generalizing k i with
  | zero => omega
  | succ n ih =>
    cases i with
    | zero => simp [byteAt, Memory.readBlock]
    | succ i =>
      have := ih (k + 1) (i := i) (by omega)
      simpa [byteAt, Memory.readBlock, Nat.add_assoc, Nat.add_comm 1 i] using this

/-- Two byte lists of one length with the same bytes are equal. -/
theorem bytes_ext {xs ys : List Byte} (hl : xs.length = ys.length)
    (h : ∀ i, i < xs.length → byteAt xs i = byteAt ys i) : xs = ys := by
  refine List.ext_getElem hl fun i h1 h2 => ?_
  have := h i h1
  simpa [byteAt, h1, h2] using this

theorem Memory.readBlock_congr {m m' : List Host.Cell} {k n : Nat}
    (h : ∀ i, i < n → Memory.read m (k + i) = Memory.read m' (k + i)) :
    Memory.readBlock m k n = Memory.readBlock m' k n := by
  refine bytes_ext (by simp) fun i hi => ?_
  rw [Memory.readBlock_length] at hi
  rw [Memory.byteAt_readBlock m k hi, Memory.byteAt_readBlock m' k hi, h i hi]

theorem Memory.readBlock_eq_map (m : List Host.Cell) (k n : Nat) :
    Memory.readBlock m k n = (List.range n).map (fun i => Memory.read m (k + i)) := by
  refine bytes_ext (by simp) fun i hi => ?_
  rw [Memory.readBlock_length] at hi
  rw [Memory.byteAt_readBlock m k hi]
  simp [byteAt, hi]

/-- A block read of the block just written. -/
theorem Memory.readBlock_writeBlock_same {m : List Host.Cell} (h : Memory.wf m) (k : Nat) (bs : List Byte) :
    Memory.readBlock (Memory.writeBlock m k bs) k bs.length = bs := by
  refine bytes_ext (by simp) fun i hi => ?_
  rw [Memory.readBlock_length] at hi
  rw [Memory.byteAt_readBlock _ k hi, Memory.read_writeBlock_inside h k hi]

/-- A block read away from the block just written. -/
theorem Memory.readBlock_writeBlock_disjoint (m : List Host.Cell) {k k' n : Nat} (bs : List Byte)
    (h : k' + n ≤ k ∨ k + bs.length ≤ k') :
    Memory.readBlock (Memory.writeBlock m k bs) k' n = Memory.readBlock m k' n :=
  Memory.readBlock_congr fun i hi => Memory.read_writeBlock_outside m bs (by omega)

end Sys2Proof.Machine
end

