-- ==== Sys2Proof/Laws/State.lean ====
section
/-! SUPPORT. One lemma per field of `State` per update of it, each true by `rfl`, so that no later proof unfolds a record update. -/

namespace Sys2Proof.Machine

/-! ### `State.complete` -/

@[simp] theorem State.complete_params (s : State) : s.complete.params = s.params := rfl
@[simp] theorem State.complete_cmd (s : State) : s.complete.cmd = s.cmd := rfl
@[simp] theorem State.complete_status (s : State) : s.complete.status = { s.status with done := true } := rfl
@[simp] theorem State.complete_ie (s : State) : s.complete.ie = s.ie := rfl
@[simp] theorem State.complete_roundState (s : State) : s.complete.roundState = s.roundState := rfl
@[simp] theorem State.complete_tag (s : State) : s.complete.tag = s.tag := rfl
@[simp] theorem State.complete_lenLo (s : State) : s.complete.lenLo = s.lenLo := rfl
@[simp] theorem State.complete_lenHi (s : State) : s.complete.lenHi = s.lenHi := rfl
@[simp] theorem State.complete_mem (s : State) : s.complete.mem = s.mem := rfl
@[simp] theorem State.complete_flight (s : State) : s.complete.flight = none := rfl
@[simp] theorem State.complete_bus (s : State) : s.complete.bus = s.bus := rfl
@[simp] theorem State.complete_resetIn (s : State) : s.complete.resetIn = s.resetIn := rfl
@[simp] theorem State.complete_replies (s : State) : s.complete.replies = s.replies := rfl

/-! ### `State.completeWithError` -/

@[simp] theorem State.completeWithError_params (s : State) (e : CmdError) :
    (s.completeWithError e).params = s.params := rfl
@[simp] theorem State.completeWithError_cmd (s : State) (e : CmdError) : (s.completeWithError e).cmd = s.cmd := rfl
@[simp] theorem State.completeWithError_status (s : State) (e : CmdError) :
    (s.completeWithError e).status = { done := true, err := true, errcode := e.code } := rfl
@[simp] theorem State.completeWithError_ie (s : State) (e : CmdError) : (s.completeWithError e).ie = s.ie := rfl
@[simp] theorem State.completeWithError_roundState (s : State) (e : CmdError) :
    (s.completeWithError e).roundState = s.roundState := rfl
@[simp] theorem State.completeWithError_tag (s : State) (e : CmdError) : (s.completeWithError e).tag = s.tag := rfl
@[simp] theorem State.completeWithError_lenLo (s : State) (e : CmdError) :
    (s.completeWithError e).lenLo = s.lenLo := rfl
@[simp] theorem State.completeWithError_lenHi (s : State) (e : CmdError) :
    (s.completeWithError e).lenHi = s.lenHi := rfl
@[simp] theorem State.completeWithError_mem (s : State) (e : CmdError) : (s.completeWithError e).mem = s.mem := rfl
@[simp] theorem State.completeWithError_flight (s : State) (e : CmdError) :
    (s.completeWithError e).flight = none := rfl
@[simp] theorem State.completeWithError_bus (s : State) (e : CmdError) : (s.completeWithError e).bus = s.bus := rfl
@[simp] theorem State.completeWithError_resetIn (s : State) (e : CmdError) :
    (s.completeWithError e).resetIn = s.resetIn := rfl
@[simp] theorem State.completeWithError_replies (s : State) (e : CmdError) :
    (s.completeWithError e).replies = s.replies := rfl

/-! ### `State.clearFlags` -/

@[simp] theorem State.clearFlags_params (s : State) (v : Byte) : (s.clearFlags v).params = s.params := rfl
@[simp] theorem State.clearFlags_cmd (s : State) (v : Byte) : (s.clearFlags v).cmd = s.cmd := rfl
@[simp] theorem State.clearFlags_status (s : State) (v : Byte) :
    (s.clearFlags v).status = { done := s.status.done && !v.getLsbD 1, err := s.status.err && !v.getLsbD 2, errcode := if v.getLsbD 2 then 0 else s.status.errcode } := rfl
@[simp] theorem State.clearFlags_ie (s : State) (v : Byte) : (s.clearFlags v).ie = s.ie := rfl
@[simp] theorem State.clearFlags_roundState (s : State) (v : Byte) : (s.clearFlags v).roundState = s.roundState := rfl
@[simp] theorem State.clearFlags_tag (s : State) (v : Byte) : (s.clearFlags v).tag = s.tag := rfl
@[simp] theorem State.clearFlags_lenLo (s : State) (v : Byte) : (s.clearFlags v).lenLo = s.lenLo := rfl
@[simp] theorem State.clearFlags_lenHi (s : State) (v : Byte) : (s.clearFlags v).lenHi = s.lenHi := rfl
@[simp] theorem State.clearFlags_mem (s : State) (v : Byte) : (s.clearFlags v).mem = s.mem := rfl
@[simp] theorem State.clearFlags_flight (s : State) (v : Byte) : (s.clearFlags v).flight = s.flight := rfl
@[simp] theorem State.clearFlags_bus (s : State) (v : Byte) : (s.clearFlags v).bus = s.bus := rfl
@[simp] theorem State.clearFlags_resetIn (s : State) (v : Byte) : (s.clearFlags v).resetIn = s.resetIn := rfl
@[simp] theorem State.clearFlags_replies (s : State) (v : Byte) : (s.clearFlags v).replies = s.replies := rfl

/-! ### `State.afterReset` -/

@[simp] theorem State.afterReset_params (s : State) : s.afterReset.params = s.params := rfl
@[simp] theorem State.afterReset_cmd (s : State) : s.afterReset.cmd = 0 := rfl
@[simp] theorem State.afterReset_status (s : State) :
    s.afterReset.status = { done := false, err := false, errcode := 0 } := rfl
@[simp] theorem State.afterReset_ie (s : State) : s.afterReset.ie = false := rfl
@[simp] theorem State.afterReset_roundState (s : State) : s.afterReset.roundState = 0 := rfl
@[simp] theorem State.afterReset_tag (s : State) : s.afterReset.tag = 0 := rfl
@[simp] theorem State.afterReset_lenLo (s : State) : s.afterReset.lenLo = 0 := rfl
@[simp] theorem State.afterReset_lenHi (s : State) : s.afterReset.lenHi = 0 := rfl
@[simp] theorem State.afterReset_mem (s : State) : s.afterReset.mem = [] := rfl
@[simp] theorem State.afterReset_flight (s : State) : s.afterReset.flight = none := rfl
@[simp] theorem State.afterReset_bus (s : State) : s.afterReset.bus = s.bus := rfl
@[simp] theorem State.afterReset_resetIn (s : State) : s.afterReset.resetIn = s.resetIn := rfl
@[simp] theorem State.afterReset_replies (s : State) : s.afterReset.replies = s.replies := rfl

/-! ### `State.setBytes` -/

@[simp] theorem State.setBytes_params (s : State) (r : Region) (bs : List Byte) :
    (s.setBytes r bs).params = s.params := rfl
@[simp] theorem State.setBytes_cmd (s : State) (r : Region) (bs : List Byte) : (s.setBytes r bs).cmd = s.cmd := rfl
@[simp] theorem State.setBytes_status (s : State) (r : Region) (bs : List Byte) :
    (s.setBytes r bs).status = s.status := rfl
@[simp] theorem State.setBytes_ie (s : State) (r : Region) (bs : List Byte) : (s.setBytes r bs).ie = s.ie := rfl
@[simp] theorem State.setBytes_roundState (s : State) (r : Region) (bs : List Byte) :
    (s.setBytes r bs).roundState = s.roundState := rfl
@[simp] theorem State.setBytes_tag (s : State) (r : Region) (bs : List Byte) : (s.setBytes r bs).tag = s.tag := rfl
@[simp] theorem State.setBytes_lenLo (s : State) (r : Region) (bs : List Byte) :
    (s.setBytes r bs).lenLo = s.lenLo := rfl
@[simp] theorem State.setBytes_lenHi (s : State) (r : Region) (bs : List Byte) :
    (s.setBytes r bs).lenHi = s.lenHi := rfl
@[simp] theorem State.setBytes_mem (s : State) (r : Region) (bs : List Byte) :
    (s.setBytes r bs).mem = Memory.writeBlock s.mem r.base bs := rfl
@[simp] theorem State.setBytes_flight (s : State) (r : Region) (bs : List Byte) :
    (s.setBytes r bs).flight = s.flight := rfl
@[simp] theorem State.setBytes_bus (s : State) (r : Region) (bs : List Byte) : (s.setBytes r bs).bus = s.bus := rfl
@[simp] theorem State.setBytes_resetIn (s : State) (r : Region) (bs : List Byte) :
    (s.setBytes r bs).resetIn = s.resetIn := rfl
@[simp] theorem State.setBytes_replies (s : State) (r : Region) (bs : List Byte) :
    (s.setBytes r bs).replies = s.replies := rfl

/-! ### `State.setByte` -/

@[simp] theorem State.setByte_params (s : State) (k : Nat) (v : Byte) : (s.setByte k v).params = s.params := rfl
@[simp] theorem State.setByte_cmd (s : State) (k : Nat) (v : Byte) : (s.setByte k v).cmd = s.cmd := rfl
@[simp] theorem State.setByte_status (s : State) (k : Nat) (v : Byte) : (s.setByte k v).status = s.status := rfl
@[simp] theorem State.setByte_ie (s : State) (k : Nat) (v : Byte) : (s.setByte k v).ie = s.ie := rfl
@[simp] theorem State.setByte_roundState (s : State) (k : Nat) (v : Byte) :
    (s.setByte k v).roundState = s.roundState := rfl
@[simp] theorem State.setByte_tag (s : State) (k : Nat) (v : Byte) : (s.setByte k v).tag = s.tag := rfl
@[simp] theorem State.setByte_lenLo (s : State) (k : Nat) (v : Byte) : (s.setByte k v).lenLo = s.lenLo := rfl
@[simp] theorem State.setByte_lenHi (s : State) (k : Nat) (v : Byte) : (s.setByte k v).lenHi = s.lenHi := rfl
@[simp] theorem State.setByte_mem (s : State) (k : Nat) (v : Byte) :
    (s.setByte k v).mem = Memory.write s.mem k v := rfl
@[simp] theorem State.setByte_flight (s : State) (k : Nat) (v : Byte) : (s.setByte k v).flight = s.flight := rfl
@[simp] theorem State.setByte_bus (s : State) (k : Nat) (v : Byte) : (s.setByte k v).bus = s.bus := rfl
@[simp] theorem State.setByte_resetIn (s : State) (k : Nat) (v : Byte) : (s.setByte k v).resetIn = s.resetIn := rfl
@[simp] theorem State.setByte_replies (s : State) (k : Nat) (v : Byte) : (s.setByte k v).replies = s.replies := rfl

/-! ### `State.setRoundState` -/

@[simp] theorem State.setRoundState_params (s : State) (v : Byte) : (s.setRoundState v).params = s.params := rfl
@[simp] theorem State.setRoundState_cmd (s : State) (v : Byte) : (s.setRoundState v).cmd = s.cmd := rfl
@[simp] theorem State.setRoundState_status (s : State) (v : Byte) : (s.setRoundState v).status = s.status := rfl
@[simp] theorem State.setRoundState_ie (s : State) (v : Byte) : (s.setRoundState v).ie = s.ie := rfl
@[simp] theorem State.setRoundState_roundState (s : State) (v : Byte) : (s.setRoundState v).roundState = v := rfl
@[simp] theorem State.setRoundState_tag (s : State) (v : Byte) : (s.setRoundState v).tag = s.tag := rfl
@[simp] theorem State.setRoundState_lenLo (s : State) (v : Byte) : (s.setRoundState v).lenLo = s.lenLo := rfl
@[simp] theorem State.setRoundState_lenHi (s : State) (v : Byte) : (s.setRoundState v).lenHi = s.lenHi := rfl
@[simp] theorem State.setRoundState_mem (s : State) (v : Byte) : (s.setRoundState v).mem = s.mem := rfl
@[simp] theorem State.setRoundState_flight (s : State) (v : Byte) : (s.setRoundState v).flight = s.flight := rfl
@[simp] theorem State.setRoundState_bus (s : State) (v : Byte) : (s.setRoundState v).bus = s.bus := rfl
@[simp] theorem State.setRoundState_resetIn (s : State) (v : Byte) : (s.setRoundState v).resetIn = s.resetIn := rfl
@[simp] theorem State.setRoundState_replies (s : State) (v : Byte) : (s.setRoundState v).replies = s.replies := rfl

/-! ### `State.setTag` -/

@[simp] theorem State.setTag_params (s : State) (v : Byte) : (s.setTag v).params = s.params := rfl
@[simp] theorem State.setTag_cmd (s : State) (v : Byte) : (s.setTag v).cmd = s.cmd := rfl
@[simp] theorem State.setTag_status (s : State) (v : Byte) : (s.setTag v).status = s.status := rfl
@[simp] theorem State.setTag_ie (s : State) (v : Byte) : (s.setTag v).ie = s.ie := rfl
@[simp] theorem State.setTag_roundState (s : State) (v : Byte) : (s.setTag v).roundState = s.roundState := rfl
@[simp] theorem State.setTag_tag (s : State) (v : Byte) : (s.setTag v).tag = v := rfl
@[simp] theorem State.setTag_lenLo (s : State) (v : Byte) : (s.setTag v).lenLo = s.lenLo := rfl
@[simp] theorem State.setTag_lenHi (s : State) (v : Byte) : (s.setTag v).lenHi = s.lenHi := rfl
@[simp] theorem State.setTag_mem (s : State) (v : Byte) : (s.setTag v).mem = s.mem := rfl
@[simp] theorem State.setTag_flight (s : State) (v : Byte) : (s.setTag v).flight = s.flight := rfl
@[simp] theorem State.setTag_bus (s : State) (v : Byte) : (s.setTag v).bus = s.bus := rfl
@[simp] theorem State.setTag_resetIn (s : State) (v : Byte) : (s.setTag v).resetIn = s.resetIn := rfl
@[simp] theorem State.setTag_replies (s : State) (v : Byte) : (s.setTag v).replies = s.replies := rfl

/-! ### `State.issue` -/

@[simp] theorem State.issue_params (s : State) (c : Byte) : (s.issue c).params = s.params := rfl
@[simp] theorem State.issue_cmd (s : State) (c : Byte) : (s.issue c).cmd = c := rfl
@[simp] theorem State.issue_status (s : State) (c : Byte) :
    (s.issue c).status = { done := false, err := false, errcode := 0 } := rfl
@[simp] theorem State.issue_ie (s : State) (c : Byte) : (s.issue c).ie = s.ie := rfl
@[simp] theorem State.issue_roundState (s : State) (c : Byte) : (s.issue c).roundState = s.roundState := rfl
@[simp] theorem State.issue_tag (s : State) (c : Byte) : (s.issue c).tag = s.tag := rfl
@[simp] theorem State.issue_lenLo (s : State) (c : Byte) : (s.issue c).lenLo = s.lenLo := rfl
@[simp] theorem State.issue_lenHi (s : State) (c : Byte) : (s.issue c).lenHi = s.lenHi := rfl
@[simp] theorem State.issue_mem (s : State) (c : Byte) : (s.issue c).mem = s.mem := rfl
@[simp] theorem State.issue_flight (s : State) (c : Byte) :
    (s.issue c).flight = some { byte := c, left := s.extraCycles c } := rfl
@[simp] theorem State.issue_bus (s : State) (c : Byte) : (s.issue c).bus = s.bus := rfl
@[simp] theorem State.issue_resetIn (s : State) (c : Byte) : (s.issue c).resetIn = s.resetIn := rfl
@[simp] theorem State.issue_replies (s : State) (c : Byte) : (s.issue c).replies = s.replies := rfl

/-! ### `State.reply` -/

@[simp] theorem State.reply_params (s : State) (v : Byte) : (s.reply v).params = s.params := rfl
@[simp] theorem State.reply_cmd (s : State) (v : Byte) : (s.reply v).cmd = s.cmd := rfl
@[simp] theorem State.reply_status (s : State) (v : Byte) : (s.reply v).status = s.status := rfl
@[simp] theorem State.reply_ie (s : State) (v : Byte) : (s.reply v).ie = s.ie := rfl
@[simp] theorem State.reply_roundState (s : State) (v : Byte) : (s.reply v).roundState = s.roundState := rfl
@[simp] theorem State.reply_tag (s : State) (v : Byte) : (s.reply v).tag = s.tag := rfl
@[simp] theorem State.reply_lenLo (s : State) (v : Byte) : (s.reply v).lenLo = s.lenLo := rfl
@[simp] theorem State.reply_lenHi (s : State) (v : Byte) : (s.reply v).lenHi = s.lenHi := rfl
@[simp] theorem State.reply_mem (s : State) (v : Byte) : (s.reply v).mem = s.mem := rfl
@[simp] theorem State.reply_flight (s : State) (v : Byte) : (s.reply v).flight = s.flight := rfl
@[simp] theorem State.reply_bus (s : State) (v : Byte) : (s.reply v).bus = s.bus := rfl
@[simp] theorem State.reply_resetIn (s : State) (v : Byte) : (s.reply v).resetIn = s.resetIn := rfl
@[simp] theorem State.reply_replies (s : State) (v : Byte) : (s.reply v).replies = v :: s.replies := rfl

/-! ### `State.startCommand` -/

@[simp] theorem State.startCommand_params (s : State) (c : Byte) : (s.startCommand c).params = s.params := rfl
@[simp] theorem State.startCommand_cmd (s : State) (c : Byte) : (s.startCommand c).cmd = c := rfl
@[simp] theorem State.startCommand_status (s : State) (c : Byte) :
    (s.startCommand c).status = { done := false, err := false, errcode := 0 } := rfl
@[simp] theorem State.startCommand_ie (s : State) (c : Byte) : (s.startCommand c).ie = s.ie := rfl
@[simp] theorem State.startCommand_roundState (s : State) (c : Byte) :
    (s.startCommand c).roundState = s.roundState := rfl
@[simp] theorem State.startCommand_tag (s : State) (c : Byte) : (s.startCommand c).tag = s.tag := rfl
@[simp] theorem State.startCommand_lenLo (s : State) (c : Byte) : (s.startCommand c).lenLo = s.lenLo := rfl
@[simp] theorem State.startCommand_lenHi (s : State) (c : Byte) : (s.startCommand c).lenHi = s.lenHi := rfl
@[simp] theorem State.startCommand_mem (s : State) (c : Byte) : (s.startCommand c).mem = s.mem := rfl
@[simp] theorem State.startCommand_flight (s : State) (c : Byte) :
    (s.startCommand c).flight = some { byte := c, left := 0 } := rfl
@[simp] theorem State.startCommand_bus (s : State) (c : Byte) : (s.startCommand c).bus = s.bus := rfl
@[simp] theorem State.startCommand_resetIn (s : State) (c : Byte) :
    (s.startCommand c).resetIn = lowerReset s.resetIn := rfl
@[simp] theorem State.startCommand_replies (s : State) (c : Byte) : (s.startCommand c).replies = s.replies := rfl

/-! ### Values computed from a state -/

@[simp] theorem State.complete_busy (s : State) : s.complete.busy = false := rfl
@[simp] theorem State.completeWithError_busy (s : State) (e : CmdError) : (s.completeWithError e).busy = false := rfl
@[simp] theorem State.afterReset_busy (s : State) : s.afterReset.busy = false := rfl
@[simp] theorem State.issue_busy (s : State) (c : Byte) : (s.issue c).busy = true := rfl
@[simp] theorem State.setBytes_len (s : State) (r : Region) (bs : List Byte) : (s.setBytes r bs).len = s.len := rfl
@[simp] theorem State.setRoundState_len (s : State) (v : Byte) : (s.setRoundState v).len = s.len := rfl
@[simp] theorem State.setRoundState_bytes (s : State) (v : Byte) (r : Region) :
    (s.setRoundState v).bytes r = s.bytes r := rfl
@[simp] theorem State.setTag_bytes (s : State) (v : Byte) (r : Region) : (s.setTag v).bytes r = s.bytes r := rfl
@[simp] theorem State.complete_bytes (s : State) (r : Region) : s.complete.bytes r = s.bytes r := rfl
@[simp] theorem State.complete_byte (s : State) (k : Nat) : s.complete.byte k = s.byte k := rfl
@[simp] theorem State.setRoundState_byte (s : State) (v : Byte) (k : Nat) :
    (s.setRoundState v).byte k = s.byte k := rfl
@[simp] theorem State.setTag_byte (s : State) (v : Byte) (k : Nat) : (s.setTag v).byte k = s.byte k := rfl

end Sys2Proof.Machine
end

