-- ==== Sys2Proof/Laws/Exec.lean ====
section
/-! SUPPORT. What the shared operations can do, said once: the two ways a command is performed, every command as its effect, the host's
turn, and the inversion of a step into its cases. -/

namespace Sys2Proof.Machine

/-! ### Commands -/

/-- The effect that the meaning of each command performs when validation passes. -/
def effectOf (i : Instr) : State → State :=
  match i with
  | .nop => fun s => s
  | .hash16a => State.hashPayloadInto haRegion
  | .hash16b => State.hashPayloadInto hbRegion
  | .mkpkey => State.makePersistentKey
  | .derive => State.deriveSessionKey
  | .expand => State.expandTable
  | .steptag => State.computeTag
  | .mixtable => State.mixTable
  | .encrypt => State.encryptPayload
  | .decrypt => State.decryptPayload

/-- Does validation step 2 of R111 raise `LEN_RANGE`? -/
abbrev raisesLenRange (i : Instr) (s : State) : Prop := readsLen i = true ∧ s.params.bufSize < s.len

/-- Every command: `LEN_RANGE`, or its effect and completion. -/
theorem exec_eq (i : Instr) (s : State) :
    exec i s = .next (if raisesLenRange i s then s.completeWithError .lenRange else (effectOf i s).complete) := by
  cases i <;> simp [exec, execNop, execHash16a, execHash16b, execMkpkey, execDerive, execExpand, execSteptag, execMixtable,
    execEncrypt, execDecrypt, perform, performOnPayload, effectOf, readsLen, raisesLenRange] <;> split <;> rfl

theorem exec_of_valid {i : Instr} {s : State} (h : ¬ raisesLenRange i s) : exec i s = .next (effectOf i s).complete := by
  rw [exec_eq, if_neg h]

theorem exec_of_lenRange {i : Instr} {s : State} (h : raisesLenRange i s) :
    exec i s = .next (s.completeWithError .lenRange) := by
  rw [exec_eq, if_pos h]

/-- What an effect leaves alone. -/
theorem effectOf_fields (i : Instr) (s : State) :
    (effectOf i s).params = s.params ∧ (effectOf i s).cmd = s.cmd ∧ (effectOf i s).status = s.status ∧
    (effectOf i s).ie = s.ie ∧ (effectOf i s).lenLo = s.lenLo ∧ (effectOf i s).lenHi = s.lenHi ∧
    (effectOf i s).flight = s.flight ∧ (effectOf i s).bus = s.bus ∧ (effectOf i s).resetIn = s.resetIn ∧
    (effectOf i s).replies = s.replies := by
  cases i <;> simp [effectOf, State.hashPayloadInto, State.makePersistentKey, State.deriveSessionKey, State.expandTable,
    State.computeTag, State.mixTable, State.encryptPayload, State.decryptPayload]

/-- An effect reads the operands only, not the flags, the engine or the host's fields. -/
theorem effectOf_congr (i : Instr) (s : State) (c : Byte) (st : Status) (ie : Bool) (f : Option Flight) (b : List HostOp)
    (l : List Bool) (r : List Byte) :
    effectOf i { s with cmd := c, status := st, ie := ie, flight := f, bus := b, resetIn := l, replies := r } =
      { effectOf i s with cmd := c, status := st, ie := ie, flight := f, bus := b, resetIn := l, replies := r } := by
  cases i <;> simp only [effectOf, State.hashPayloadInto, State.makePersistentKey, State.deriveSessionKey, State.expandTable,
    State.computeTag, State.mixTable, State.encryptPayload, State.decryptPayload, State.setBytes, State.setRoundState,
    State.setTag, State.bytes, State.payload, State.payloadRegion, State.len]

theorem effectOf_flight (i : Instr) (s : State) (f : Option Flight) :
    effectOf i { s with flight := f } = { effectOf i s with flight := f } := by
  cases i <;> simp only [effectOf, State.hashPayloadInto, State.makePersistentKey, State.deriveSessionKey, State.expandTable,
    State.computeTag, State.mixTable, State.encryptPayload, State.decryptPayload, State.setBytes, State.setRoundState,
    State.setTag, State.bytes, State.payload, State.payloadRegion, State.len]

/-! ### Running the command in flight -/

/-- Every command byte, legal or not, answers a next state with no command in flight. -/
theorem runCommand_cases (c : Byte) (s : State) :
    (∃ i, decode c = .ok i ∧ runCommand c s = exec i s) ∨
    (∃ e, decode c = .error e ∧ runCommand c s = .next (s.completeWithError .illegalCmd)) := by
  unfold runCommand
  cases h : decode c with
  | ok i => exact .inl ⟨i, rfl, rfl⟩
  | error e => exact .inr ⟨e, rfl, rfl⟩

theorem runCommand_of_not_command {c : Byte} (h : isCommand c = false) (s : State) :
    runCommand c s = .next (s.completeWithError .illegalCmd) := by
  unfold isCommand at h
  unfold runCommand
  cases hd : decode c with
  | ok i => simp [hd] at h
  | error e => rfl

/-- The state a command byte leaves: it ended with an error, or with its effect. -/
inductive RunResult (c : Byte) (s : State) : State → Prop where
  | error (e : CmdError) : RunResult c s (s.completeWithError e)
  | effect (i : Instr) (hd : decode c = .ok i) (hl : ¬ raisesLenRange i s) : RunResult c s (effectOf i s).complete

theorem runCommand_result (c : Byte) (s : State) : ∃ t, runCommand c s = .next t ∧ RunResult c s t := by
  rcases runCommand_cases c s with ⟨i, hd, h⟩ | ⟨e, -, h⟩
  · rw [h, exec_eq]
    split
    · exact ⟨_, rfl, .error _⟩
    · rename_i hl; exact ⟨_, rfl, .effect i hd hl⟩
  · exact ⟨_, h, .error _⟩

/-- What running a command byte leaves alone. -/
theorem RunResult.fields {c : Byte} {s t : State} (h : RunResult c s t) :
    t.params = s.params ∧ t.cmd = s.cmd ∧ t.ie = s.ie ∧ t.lenLo = s.lenLo ∧ t.lenHi = s.lenHi ∧ t.flight = none ∧
    t.bus = s.bus ∧ t.resetIn = s.resetIn ∧ t.replies = s.replies ∧ t.status.done = true := by
  cases h <;> simp [effectOf_fields]

/-- Running a command byte does not look at the count of the command in flight. -/
theorem runCommand_flight (c : Byte) (s : State) (f : Option Flight) :
    runCommand c { s with flight := f } = runCommand c s := by
  unfold runCommand
  split
  · rename_i i _
    rw [exec_eq, exec_eq, effectOf_flight]
    by_cases hl : raisesLenRange i s
    · rw [if_pos hl, if_pos (show raisesLenRange i { s with flight := f } from hl)]; rfl
    · rw [if_neg hl, if_neg (show ¬ raisesLenRange i { s with flight := f } from hl)]; rfl
  · rfl

/-! ### The host -/

/-- A host operation, in its cases. -/
inductive HostResult (s : State) : State → Prop where
  /-- Nothing to do, or the next operation stalls. -/
  | waits : HostResult s s
  | reads (a : Addr) (rest : List HostOp) (h : s.bus = .read a :: rest) :
      HostResult s ({ s with bus := rest }.reply (s.windowRead a))
  | writes (a : Addr) (v : Byte) (rest : List HostOp) (h : s.bus = .write a v :: rest)
      (he : s.busy = true → HostOp.exempt s.params.bufSize (.write a v) = true) :
      HostResult s ({ s with bus := rest }.windowWrite a v)
  | polls (rest : List HostOp) (h : s.bus = .wait :: rest) :
      HostResult s ({ s with bus := if s.busy then .wait :: rest else rest }.reply (s.windowRead statusAddr))
  | idles (rest : List HostOp) (h : s.bus = .idle :: rest) : HostResult s { s with bus := rest }

theorem hostTurn_result (s : State) : HostResult s s.hostTurn := by
  unfold State.hostTurn
  cases hb : s.bus with
  | nil => exact .waits
  | cons op rest =>
    dsimp only
    split
    · exact .waits
    · rename_i hx
      cases op with
      | read a => exact .reads a rest hb
      | write a v => exact .writes a v rest hb fun hbusy => by simpa [hbusy] using hx
      | wait => exact .polls rest hb
      | idle => exact .idles rest hb

/-- A host turn while a command is in flight leaves it in flight, or is a soft reset that aborts it. -/
theorem HostResult.flight {s t : State} (h : HostResult s t) {f : Flight} (hf : s.flight = some f) :
    t.flight = some f ∨ t.flight = none := by
  cases h with
  | waits => simp [hf]
  | reads => simp [hf]
  | polls => simp [hf]
  | idles => simp [hf]
  | writes a v rest h he =>
    have he := he (by simp [State.busy, hf])
    unfold HostOp.exempt at he
    unfold State.windowWrite State.writePlace State.writeCtrl
    simp only at he ⊢
    split <;> first | (split <;> simp [hf]) | simp_all

/-! ### A step -/

/-- An engine cycle, in its cases: a host turn with the engine idle; a host turn while the engine counts down; the command in flight
runs. -/
inductive CycleResult (s : State) : State → Prop where
  | idle (hf : s.flight = none) {t : State} (ht : HostResult s t) : CycleResult s t
  | count (c : Byte) (n : Nat) (hf : s.flight = some { byte := c, left := n + 1 }) {t : State}
      (ht : HostResult { s with flight := some { byte := c, left := n } } t) : CycleResult s t
  | run (c : Byte) (hf : s.flight = some { byte := c, left := 0 }) {t : State} (ht : RunResult c s t) : CycleResult s t

theorem engineCycle_result (s : State) : ∃ t, engineCycle s = .next t ∧ CycleResult s t := by
  unfold engineCycle
  cases hf : s.flight with
  | none => exact ⟨_, rfl, .idle hf (hostTurn_result _)⟩
  | some f =>
    obtain ⟨c, n⟩ := f
    cases n with
    | zero =>
      obtain ⟨t, h, hr⟩ := runCommand_result c s
      exact ⟨t, h, .run c hf hr⟩
    | succ n => exact ⟨_, rfl, .count c n hf (hostTurn_result _)⟩

/-- A step, in its cases: a reset, or an engine cycle after the level of the reset input was taken. -/
inductive StepResult (s : State) : State → Prop where
  | reset (levels : List Bool) (h : s.resetIn = true :: levels) : StepResult s { s with resetIn := levels }.afterReset
  | cycle (levels : List Bool) {t : State} (ht : CycleResult { s with resetIn := levels } t) : StepResult s t

/-- Every step answers a next state, which is one of the cases of `StepResult`. -/
theorem step_result (s : State) : ∃ t, step s = .next t ∧ StepResult s t := by
  unfold step cycle
  cases hl : s.resetIn with
  | nil =>
    obtain ⟨t, h, hr⟩ := engineCycle_result s
    exact ⟨t, h, .cycle s.resetIn hr⟩
  | cons b levels =>
    cases b with
    | true => exact ⟨_, rfl, .reset levels hl⟩
    | false =>
      obtain ⟨t, h, hr⟩ := engineCycle_result { s with resetIn := levels }
      exact ⟨t, h, .cycle levels hr⟩

theorem step_cases {s t : State} (h : step s = .next t) : StepResult s t := by
  obtain ⟨u, hu, hr⟩ := step_result s
  rw [h] at hu
  injection hu with hu
  exact hu ▸ hr

/-- With no reset level pending, a step is an engine cycle. -/
theorem step_of_no_reset {s : State} (h : s.resetIn = []) : step s = engineCycle s := by
  unfold step cycle
  rw [h]

/-- With the engine idle, a step performs the host's next operation. -/
theorem step_idle {s : State} {op : HostOp} {rest : List HostOp} (hr : s.resetIn = []) (hf : s.flight = none)
    (hb : s.bus = op :: rest) : step s = .next (s.performHostOp op rest) := by
  rw [step_of_no_reset hr, engineCycle, hf]
  simp [State.hostTurn, hb, State.busy, hf]

/-- In the last cycle of a command in flight, a step runs it. -/
theorem step_run {s : State} {c : Byte} (hr : s.resetIn = []) (hf : s.flight = some { byte := c, left := 0 }) :
    step s = runCommand c s := by
  rw [step_of_no_reset hr, engineCycle, hf]

/-- In an earlier cycle, a step counts down and gives the host its turn. -/
theorem step_count {s : State} {c : Byte} {n : Nat} (hr : s.resetIn = [])
    (hf : s.flight = some { byte := c, left := n + 1 }) :
    step s = .next { s with flight := some { byte := c, left := n } }.hostTurn := by
  rw [step_of_no_reset hr, engineCycle, hf]

/-- A non-exempt operation stalls while a command is in flight. -/
theorem hostTurn_stall {s : State} {op : HostOp} {rest : List HostOp} (hb : s.busy = true) (hq : s.bus = op :: rest)
    (he : op.exempt s.params.bufSize = false) : s.hostTurn = s := by
  simp [State.hostTurn, hq, hb, he]

/-! ### Runs -/

theorem core_run_succ (n : Nat) (s t : State) (h : step s = .next t) : core.run (n + 1) s = core.run n t := by
  have h' : core.step s = .next t := h
  simp only [Host.Core.run, h']

theorem core_run_one (s : State) : core.run 1 s = step s := by
  obtain ⟨t, h, -⟩ := step_result s
  rw [core_run_succ 0 s t h, h]
  rfl

end Sys2Proof.Machine
end

