-- ==== Sys2Proof/Laws/Passes.lean ====
section
/-! SUPPORT. The engine's loops, index by index: how many bytes each makes, each byte it makes, and the final working value. -/

namespace Sys2Proof.Machine

/-! ### Byte lists by index -/

@[simp] theorem byteAt_cons_zero (b : Byte) (bs : List Byte) : byteAt (b :: bs) 0 = b := rfl
@[simp] theorem byteAt_cons_succ (b : Byte) (bs : List Byte) (k : Nat) : byteAt (b :: bs) (k + 1) = byteAt bs k := rfl

theorem byteAt_append_left {xs ys : List Byte} {k : Nat} (h : k < xs.length) : byteAt (xs ++ ys) k = byteAt xs k := by
  simp [byteAt, List.getElem?_append_left h]

theorem byteAt_append_right (xs ys : List Byte) (k : Nat) : byteAt (xs ++ ys) (xs.length + k) = byteAt ys k := by
  simp [byteAt, List.getElem?_append_right]

theorem byteAt_map_range (f : Nat → Byte) {n k : Nat} (h : k < n) : byteAt ((List.range n).map f) k = f k := by
  simp [byteAt, h]

theorem byteAt_replicate (n k : Nat) : byteAt (List.replicate n 0x00) k = 0x00 := by
  simp only [byteAt, List.getD_eq_getElem?_getD, List.getElem?_replicate]
  split <;> rfl

/-! ### HASH16 -/

theorem h16Position_length (p : Nat) (v : Byte) (k : Nat) (slots : List Byte) :
    (h16Position p v k slots).length = slots.length := by
  induction slots generalizing k with
  | nil => rfl
  | cons t rest ih => simp [h16Position, ih]

/-- What no position changes, the pass does not change. -/
theorem hashPass_keeps {σ τ : Type} (update : Nat → Byte → σ → σ) (f : σ → τ)
    (hf : ∀ p v slots, f (update p v slots) = f slots) (p : Nat) (input : List Byte) (slots : σ) :
    f (hashPass update p input slots) = f slots := by
  induction input generalizing p slots with
  | nil => rfl
  | cons v rest ih => rw [hashPass, ih, hf]

/-- R130 (d): the pass over a longer input goes on from the slots that the pass over the shorter one left. -/
theorem hashPass_append {σ : Type} (update : Nat → Byte → σ → σ) (p : Nat) (xs ys : List Byte) (slots : σ) :
    hashPass update p (xs ++ ys) slots = hashPass update (p + xs.length) ys (hashPass update p xs slots) := by
  induction xs generalizing p slots with
  | nil => rfl
  | cons v rest ih =>
    rw [List.cons_append, hashPass, hashPass, ih, List.length_cons, Nat.add_comm rest.length 1, Nat.add_assoc]

/-- R130 (b): 16 bytes, under every instantiation. -/
@[simp] theorem hash16_length (h : HashParam) (input : List Byte) : (hash16 h input).length = 16 := by
  cases h with
  | h16ref =>
    rw [hash16, h16ref, hashPass_keeps _ List.length (fun p v slots => h16Position_length p v 0 slots)]
    simp
  | opened n => simp [hash16]

/-- R130 (c): the empty input gives the constant table of the instantiation. -/
@[simp] theorem hash16_nil_opened (n : Nat) : hash16 (.opened n) [] = (Config.openHashTable n).toList := rfl

/-- One position of `H16REF` updates every slot by itself. -/
theorem byteAt_h16Position (p : Nat) (v : Byte) (k : Nat) (slots : List Byte) {j : Nat} (hj : j < slots.length) :
    byteAt (h16Position p v k slots) j = h16Slot p (k + j) v (byteAt slots j) := by
  induction slots generalizing k j with
  | nil => simp at hj
  | cons t rest ih =>
    cases j with
    | zero => rfl
    | succ j =>
      rw [h16Position, byteAt_cons_succ, byteAt_cons_succ, ih (k + 1) (by simpa using hj)]
      congr 1
      omega

/-! ### MKPKEY and DERIVE -/

@[simp] theorem persistentKey_length (ha hb : List Byte) : (persistentKey ha hb).length = 32 := by simp [persistentKey]

theorem byteAt_persistentKey_low (ha hb : List Byte) {i : Nat} (h : i < 16) :
    byteAt (persistentKey ha hb) i = byteMix hb i (byteAt ha i) := by
  rw [persistentKey, byteAt_append_left (by simpa using h), byteAt_map_range _ h]

theorem byteAt_persistentKey_high (ha hb : List Byte) {i : Nat} (h : i < 16) :
    byteAt (persistentKey ha hb) (16 + i) = byteMix ha (15 - i) (byteAt hb i) := by
  have := byteAt_append_right ((List.range 16).map (fun i => byteMix hb i (byteAt ha i)))
    ((List.range 16).map (fun i => byteMix ha (15 - i) (byteAt hb i))) i
  rw [List.length_map, List.length_range] at this
  rw [persistentKey, this, byteAt_map_range _ h]

@[simp] theorem sessionKey_length (low high pub : List Byte) : (sessionKey low high pub).length = 32 := by
  simp [sessionKey, List.range_succ]

theorem byteAt_sessionKey (low high pub : List Byte) {i : Nat} (h : i < 16) :
    byteAt (sessionKey low high pub) (2 * i) = mixI i (byteAt low i) (byteAt pub (2 * i)) ∧
    byteAt (sessionKey low high pub) (2 * i + 1) = mixI i (byteAt high i) (byteAt low (15 - i)) := by
  obtain rfl | rfl | rfl | rfl | rfl | rfl | rfl | rfl | rfl | rfl | rfl | rfl | rfl | rfl | rfl | rfl :
      i = 0 ∨ i = 1 ∨ i = 2 ∨ i = 3 ∨ i = 4 ∨ i = 5 ∨ i = 6 ∨ i = 7 ∨ i = 8 ∨ i = 9 ∨ i = 10 ∨ i = 11 ∨ i = 12 ∨ i = 13 ∨
      i = 14 ∨ i = 15 := by omega
  all_goals exact ⟨rfl, rfl⟩

/-! ### EXPAND -/

theorem expandSlices_length (h : HashParam) (n : Word32) (key : List Byte) {k : Nat} (hk : key.length = 2 * k) :
    (expandSlices h n key).length = 16 * k := by
  induction k generalizing n key with
  | zero =>
    cases List.length_eq_zero_iff.mp (by simpa using hk)
    rfl
  | succ k ih =>
    match key, hk with
    | s :: e :: rest, hk =>
      simp only [List.length_cons] at hk
      rw [expandSlices, List.length_append, hash16_length, ih _ rest (by omega)]
      omega

/-- The accumulator after `k` steps from `n` on, over a list of key bytes. -/
def expandAccFrom (n : Word32) (key : List Byte) (k : Nat) : Word32 :=
  match k with
  | 0 => n
  | k + 1 =>
    expandAccumulate (expandAccFrom n key k) (expandStepValue (byteAt key (2 * k)) (byteAt key (2 * k + 1)))

theorem expandAccFrom_shift (n : Word32) (s e : Byte) (rest : List Byte) (k : Nat) :
    expandAccFrom n (s :: e :: rest) (k + 1) = expandAccFrom (expandAccumulate n (expandStepValue s e)) rest k := by
  induction k with
  | zero => rfl
  | succ k ih =>
    rw [expandAccFrom, ih]
    rfl

/-- Slice `k` of the expansion is the hash of the little-endian bytes of the accumulator after `k + 1` steps. -/
theorem byteAt_expandSlices (h : HashParam) (n : Word32) (key : List Byte) {k j : Nat} (hk : 2 * k + 1 < key.length)
    (hj : j < 16) :
    byteAt (expandSlices h n key) (16 * k + j) =
      byteAt (hash16 h (littleEndianBytes (expandAccFrom n key (k + 1)))) j := by
  induction k generalizing n key with
  | zero =>
    match key, hk with
    | s :: e :: rest, _ =>
      rw [expandSlices, Nat.mul_zero, Nat.zero_add, byteAt_append_left (by simpa using hj), expandAccFrom_shift]
      rfl
  | succ k ih =>
    match key, hk with
    | s :: e :: rest, hk =>
      simp only [List.length_cons] at hk
      have := byteAt_append_right (hash16 h (littleEndianBytes (expandAccumulate n (expandStepValue s e))))
        (expandSlices h (expandAccumulate n (expandStepValue s e)) rest) (16 * k + j)
      rw [hash16_length] at this
      rw [expandSlices, show 16 * (k + 1) + j = 16 + (16 * k + j) by omega, this, ih _ rest (by omega),
        expandAccFrom_shift]

/-! ### MIXTABLE, ENCRYPT and DECRYPT -/

/-- A round state after `n` updates by `step` with the table entries `f 0`, `f 1`, ... -/
def stateSeq (step : Byte → Byte → Byte) (s : Byte) (f : Nat → Byte) (n : Nat) : Byte :=
  match n with
  | 0 => s
  | n + 1 => step (stateSeq step s f n) (f n)

theorem stateSeq_shift (step : Byte → Byte → Byte) (s : Byte) (f : Nat → Byte) (n : Nat) :
    stateSeq step s f (n + 1) = stateSeq step (step s (f 0)) (fun i => f (i + 1)) n := by
  induction n with
  | zero => rfl
  | succ n ih => rw [stateSeq, ih]; rfl

theorem stateSeq_congr (step : Byte → Byte → Byte) (s : Byte) {f g : Nat → Byte} {n : Nat}
    (h : ∀ i, i < n → f i = g i) : stateSeq step s f n = stateSeq step s g n := by
  induction n with
  | zero => rfl
  | succ n ih => rw [stateSeq, stateSeq, ih fun i hi => h i (by omega), h n (by omega)]

theorem mixStateAt_eq (s : Byte) (tbl : Nat → Byte) (n : Nat) : mixStateAt s tbl n = stateSeq mixStep s tbl n := by
  have h : ∀ u : Byte, (if (u &&& 1) = 0 then not8 u else u) = if lowBit u then u else not8 u := by decide +kernel
  induction n with
  | zero => rfl
  | succ n ih => rw [mixStateAt, stateSeq, ih]; exact h _

theorem payloadStateAt_eq (s : Byte) (tbl : Nat → Byte) (n : Nat) :
    payloadStateAt s tbl n = stateSeq payloadStep s (fun i => tbl (i % 256)) n := by
  have h : ∀ u : Byte, (if (u &&& 1) = 1 then not8 u else u) = if lowBit u then not8 u else u := by decide +kernel
  induction n with
  | zero => rfl
  | succ n ih => rw [payloadStateAt, stateSeq, ih]; exact h _

@[simp] theorem mixPass_length (r : RotParam) (pub : List Byte) (i : Nat) (s : Byte) (table : List Byte) :
    (mixPass r pub i s table).1.length = table.length := by
  induction table generalizing i s with
  | nil => rfl
  | cons t rest ih => simp [mixPass, ih]

theorem mixPass_state (r : RotParam) (pub : List Byte) (i : Nat) (s : Byte) (table : List Byte) :
    (mixPass r pub i s table).2 = stateSeq mixStep s (byteAt table) table.length := by
  induction table generalizing i s with
  | nil => rfl
  | cons t rest ih => rw [mixPass, List.length_cons, stateSeq_shift]; exact ih _ _

theorem byteAt_mixPass (r : RotParam) (pub : List Byte) (i : Nat) (s : Byte) (table : List Byte) {k : Nat}
    (hk : k < table.length) :
    byteAt (mixPass r pub i s table).1 k =
      rot r (pattern (stateSeq mixStep s (byteAt table) (k + 1))) (byteMix pub ((i + k) % 32) (byteAt table k)) := by
  induction table generalizing i s k with
  | nil => simp at hk
  | cons t rest ih =>
    cases k with
    | zero => rfl
    | succ k =>
      rw [mixPass, byteAt_cons_succ, byteAt_cons_succ, stateSeq_shift, ih _ _ (by simpa using hk),
        show i + 1 + k = i + (k + 1) by omega]
      rfl

@[simp] theorem encryptPass_length (r : RotParam) (table : List Byte) (i : Nat) (s : Byte) (buf : List Byte) :
    (encryptPass r table i s buf).1.length = buf.length := by
  induction buf generalizing i s with
  | nil => rfl
  | cons b rest ih => simp [encryptPass, ih]

@[simp] theorem decryptPass_length (r : RotParam) (table : List Byte) (i : Nat) (s : Byte) (buf : List Byte) :
    (decryptPass r table i s buf).1.length = buf.length := by
  induction buf generalizing i s with
  | nil => rfl
  | cons b rest ih => simp [decryptPass, ih]

theorem encryptPass_state (r : RotParam) (table : List Byte) (i : Nat) (s : Byte) (buf : List Byte) :
    (encryptPass r table i s buf).2 = stateSeq payloadStep s (fun k => byteAt table ((i + k) % 256)) buf.length := by
  induction buf generalizing i s with
  | nil => rfl
  | cons b rest ih =>
    rw [encryptPass, List.length_cons, stateSeq_shift]
    refine (ih _ _).trans ?_
    simp only [Nat.add_assoc, Nat.add_comm 1, Nat.add_zero]

theorem decryptPass_state (r : RotParam) (table : List Byte) (i : Nat) (s : Byte) (buf : List Byte) :
    (decryptPass r table i s buf).2 = stateSeq payloadStep s (fun k => byteAt table ((i + k) % 256)) buf.length := by
  induction buf generalizing i s with
  | nil => rfl
  | cons b rest ih =>
    rw [decryptPass, List.length_cons, stateSeq_shift]
    refine (ih _ _).trans ?_
    simp only [Nat.add_assoc, Nat.add_comm 1, Nat.add_zero]

theorem byteAt_encryptPass (r : RotParam) (table : List Byte) (i : Nat) (s : Byte) (buf : List Byte) {k : Nat}
    (hk : k < buf.length) :
    byteAt (encryptPass r table i s buf).1 k =
      rot r (pattern (stateSeq payloadStep s (fun k => byteAt table ((i + k) % 256)) (k + 1)))
        (byteMix table ((i + k) % 256) (byteAt buf k)) := by
  induction buf generalizing i s k with
  | nil => simp at hk
  | cons b rest ih =>
    cases k with
    | zero => rfl
    | succ k =>
      rw [encryptPass, byteAt_cons_succ, byteAt_cons_succ, stateSeq_shift, ih _ _ (by simpa using hk)]
      simp only [Nat.add_assoc, Nat.add_comm 1, Nat.add_zero]

theorem byteAt_decryptPass (r : RotParam) (table : List Byte) (i : Nat) (s : Byte) (buf : List Byte) {k : Nat}
    (hk : k < buf.length) :
    byteAt (decryptPass r table i s buf).1 k =
      byteMix table ((i + k) % 256)
        (unrot r (pattern (stateSeq payloadStep s (fun k => byteAt table ((i + k) % 256)) (k + 1))) (byteAt buf k)) := by
  induction buf generalizing i s k with
  | nil => simp at hk
  | cons b rest ih =>
    cases k with
    | zero => rfl
    | succ k =>
      rw [decryptPass, byteAt_cons_succ, byteAt_cons_succ, stateSeq_shift, ih _ _ (by simpa using hk)]
      simp only [Nat.add_assoc, Nat.add_comm 1, Nat.add_zero]

/-! ### Reading and writing the operands -/

@[simp] theorem State.bytes_length (s : State) (r : Region) : (s.bytes r).length = r.size := by simp [State.bytes]

theorem State.byteAt_bytes (s : State) (r : Region) {i : Nat} (h : i < r.size) :
    byteAt (s.bytes r) i = s.byte (r.base + i) := Memory.byteAt_readBlock s.mem r.base h

@[simp] theorem State.payload_length (s : State) : s.payload.length = s.len := by
  simp [State.payload, State.payloadRegion, bufRegion]

theorem State.payload_eq (s : State) : s.payload = s.payloadBytes := by
  simp [State.payload, State.payloadRegion, bufRegion, State.bytes, State.payloadBytes, Memory.readBlock_eq_map, State.byte]

theorem Region.holds_iff (r : Region) (k : Nat) : r.holds k = true ↔ r.base ≤ k ∧ k < r.base + r.size := by
  simp [Region.holds]

/-- Bytes stored into a region, read back. -/
theorem State.byte_setBytes_inside {s : State} (h : Memory.wf s.mem) (r : Region) {bs : List Byte} {i : Nat}
    (hi : i < bs.length) : (s.setBytes r bs).byte (r.base + i) = byteAt bs i :=
  Memory.read_writeBlock_inside h r.base hi

/-- Bytes stored into a region leave every byte outside it alone. -/
theorem State.byte_setBytes_outside (s : State) (r : Region) {bs : List Byte} (hl : bs.length = r.size) {k : Nat}
    (hk : r.holds k = false) : (s.setBytes r bs).byte k = s.byte k := by
  refine Memory.read_writeBlock_outside s.mem bs ?_
  rw [hl]
  rw [← Bool.not_eq_true, Region.holds_iff] at hk
  omega

/-- Bytes stored into a region, read back as a list. -/
theorem State.bytes_setBytes_same {s : State} (h : Memory.wf s.mem) (r : Region) {bs : List Byte}
    (hl : bs.length = r.size) : (s.setBytes r bs).bytes r = bs := by
  have := Memory.readBlock_writeBlock_same h r.base bs
  rw [hl] at this
  exact this

/-- Bytes stored into a region leave a disjoint region alone. -/
theorem State.bytes_setBytes_disjoint (s : State) (r r' : Region) {bs : List Byte} (hl : bs.length = r.size)
    (hd : r'.base + r'.size ≤ r.base ∨ r.base + r.size ≤ r'.base) : (s.setBytes r bs).bytes r' = s.bytes r' :=
  Memory.readBlock_writeBlock_disjoint s.mem bs (by omega)

end Sys2Proof.Machine
end

