-- ==== Sys2Proof/Laws/Effects.lean ====
section
/-! SUPPORT. What the effect of each command does to the byte memories: which lists it stores where, that it keeps the canonical form, and
that it touches no byte outside its write regions. -/

namespace Sys2Proof.Machine

/-- The lists an effect stores, with the regions it stores them into, in order. -/
def storesOf (i : Instr) (s : State) : List (Region × List Byte) :=
  match i with
  | .nop | .steptag => []
  | .hash16a => [(haRegion, hash16 s.params.hash s.payload)]
  | .hash16b => [(hbRegion, hash16 s.params.hash s.payload)]
  | .mkpkey => [(pkeyRegion, persistentKey (s.bytes haRegion) (s.bytes hbRegion))]
  | .derive =>
    [(sk32Region, sessionKey (hash16 s.params.hash (s.bytes pkeyRegion)) (hash16 s.params.hash (s.bytes pubRegion))
      (s.bytes pubRegion))]
  | .expand =>
    [(tblRegion, expandSlices s.params.hash 0 (s.bytes sk32Region)), (sk32Region, List.replicate 32 0x00)]
  | .mixtable => [(tblRegion, (mixPass s.params.rot (s.bytes pubRegion) 0 s.roundState (s.bytes tblRegion)).1)]
  | .encrypt => [(s.payloadRegion, (encryptPass s.params.rot (s.bytes tblRegion) 0 s.roundState s.payload).1)]
  | .decrypt => [(s.payloadRegion, (decryptPass s.params.rot (s.bytes tblRegion) 0 s.roundState s.payload).1)]

/-- A list of stores, performed in order. -/
def storeAll (m : List Host.Cell) (stores : List (Region × List Byte)) : List Host.Cell :=
  match stores with
  | [] => m
  | (r, bs) :: rest => storeAll (Memory.writeBlock m r.base bs) rest

/-- The memory an effect leaves is that of its stores. -/
theorem effectOf_mem (i : Instr) (s : State) : (effectOf i s).mem = storeAll s.mem (storesOf i s) := by
  cases i <;> simp [effectOf, storesOf, storeAll, State.hashPayloadInto, State.makePersistentKey, State.deriveSessionKey,
    State.expandTable, State.computeTag, State.mixTable, State.encryptPayload, State.decryptPayload]

/-- Every list stored fills its region, and the regions are the write regions of R61. -/
theorem storesOf_fits (i : Instr) (s : State) :
    (∀ x ∈ storesOf i s, x.2.length = x.1.size) ∧ (storesOf i s).map (·.1) = writeRegions i s.len := by
  have h : (expandSlices s.params.hash 0 (s.bytes sk32Region)).length = 256 :=
    expandSlices_length (k := 16) s.params.hash 0 (s.bytes sk32Region) (by simp [sk32Region])
  cases i <;> simp [storesOf, writeRegions, haRegion, hbRegion, pkeyRegion, sk32Region, tblRegion, State.payloadRegion,
    bufRegion]
  exact h

theorem storeAll_wf {m : List Host.Cell} (h : Memory.wf m) (stores : List (Region × List Byte)) :
    Memory.wf (storeAll m stores) := by
  induction stores generalizing m with
  | nil => exact h
  | cons x rest ih => exact ih (Memory.writeBlock_wf h _ _)

theorem mem_storeAll {m : List Host.Cell} {stores : List (Region × List Byte)}
    (hl : ∀ x ∈ stores, x.2.length = x.1.size) {c : Host.Cell} (hc : c ∈ storeAll m stores) :
    (∃ x ∈ stores, x.1.holds c.1 = true) ∨ c ∈ m := by
  induction stores generalizing m with
  | nil => exact .inr hc
  | cons x rest ih =>
    rcases ih (fun y hy => hl y (by simp [hy])) hc with ⟨y, hy, h⟩ | h
    · exact .inl ⟨y, by simp [hy], h⟩
    · rcases Memory.mem_writeBlock h with h | h
      · refine .inl ⟨x, by simp, (Region.holds_iff _ _).mpr ?_⟩
        rw [← hl x (by simp)]
        exact h
      · exact .inr h

theorem read_storeAll_outside (m : List Host.Cell) {stores : List (Region × List Byte)}
    (hl : ∀ x ∈ stores, x.2.length = x.1.size) {k : Nat} (hk : ∀ x ∈ stores, x.1.holds k = false) :
    Memory.read (storeAll m stores) k = Memory.read m k := by
  induction stores generalizing m with
  | nil => rfl
  | cons x rest ih =>
    rw [storeAll, ih _ (fun y hy => hl y (by simp [hy])) (fun y hy => hk y (by simp [hy]))]
    refine Memory.read_writeBlock_outside m x.2 ?_
    have h1 := hl x (by simp)
    have h2 := hk x (by simp)
    rw [← Bool.not_eq_true, Region.holds_iff] at h2
    omega

/-- An effect keeps the canonical form of the memory. -/
theorem effectOf_wf (i : Instr) {s : State} (h : Memory.wf s.mem) : Memory.wf (effectOf i s).mem := by
  rw [effectOf_mem]
  exact storeAll_wf h _

/-- An effect lists no new address outside its write regions. -/
theorem mem_effectOf {i : Instr} {s : State} {c : Host.Cell} (h : c ∈ (effectOf i s).mem) :
    (∃ r ∈ writeRegions i s.len, r.holds c.1 = true) ∨ c ∈ s.mem := by
  rw [effectOf_mem] at h
  rcases mem_storeAll (storesOf_fits i s).1 h with ⟨x, hx, hr⟩ | h
  · refine .inl ⟨x.1, ?_, hr⟩
    rw [← (storesOf_fits i s).2]
    exact List.mem_map_of_mem hx
  · exact .inr h

/-- An effect leaves every byte outside its write regions alone. -/
theorem effectOf_byte_outside {i : Instr} {s : State} {k : Nat}
    (hk : ∀ r ∈ writeRegions i s.len, r.holds k = false) : (effectOf i s).byte k = s.byte k := by
  show Memory.read (effectOf i s).mem k = _
  rw [effectOf_mem]
  refine read_storeAll_outside s.mem (storesOf_fits i s).1 fun x hx => hk x.1 ?_
  rw [← (storesOf_fits i s).2]
  exact List.mem_map_of_mem hx

/-- The registers an effect leaves alone: `STATE` but for the permutation engine, `TAG` but for `STEPTAG`. -/
theorem effectOf_registers (i : Instr) (s : State) :
    (writesRoundState i = false → (effectOf i s).roundState = s.roundState) ∧
    (writesTag i = false → (effectOf i s).tag = s.tag) := by
  cases i <;> simp [effectOf, writesRoundState, readsRoundState, writesTag, State.hashPayloadInto, State.makePersistentKey,
    State.deriveSessionKey, State.expandTable, State.computeTag, State.mixTable, State.encryptPayload, State.decryptPayload]

/-- The round state an effect leaves. -/
def roundStateAfter (i : Instr) (s : State) : Byte :=
  match i with
  | .mixtable => (mixPass s.params.rot (s.bytes pubRegion) 0 s.roundState (s.bytes tblRegion)).2
  | .encrypt => (encryptPass s.params.rot (s.bytes tblRegion) 0 s.roundState s.payload).2
  | .decrypt => (decryptPass s.params.rot (s.bytes tblRegion) 0 s.roundState s.payload).2
  | .nop | .hash16a | .hash16b | .mkpkey | .derive | .expand | .steptag => s.roundState

/-- The tag an effect leaves. -/
def tagAfter (i : Instr) (s : State) : Byte :=
  match i with
  | .steptag => stepTag (s.bytes pkeyRegion) s.payload
  | .nop | .hash16a | .hash16b | .mkpkey | .derive | .expand | .mixtable | .encrypt | .decrypt => s.tag

theorem effectOf_roundState_tag (i : Instr) (s : State) :
    (effectOf i s).roundState = roundStateAfter i s ∧ (effectOf i s).tag = tagAfter i s := by
  cases i <;> simp [effectOf, roundStateAfter, tagAfter, State.hashPayloadInto, State.makePersistentKey,
    State.deriveSessionKey, State.expandTable, State.computeTag, State.mixTable, State.encryptPayload, State.decryptPayload]

/-- A command that passes validation completes with its stores, its round state and its tag, and changes nothing else but `DONE` and
`BUSY`. -/
theorem exec_completedWith {i : Instr} {s : State} (h : ¬ raisesLenRange i s) :
    exec i s =
      .next (s.completedWith (storeAll s.mem (storesOf i s)) (roundStateAfter i s) (tagAfter i s)) := by
  have hf := effectOf_fields i s
  have hr := effectOf_roundState_tag i s
  rw [exec_of_valid h, ← effectOf_mem, ← hr.1, ← hr.2]
  unfold State.complete State.completedWith
  simp only [hf]

/-- A command that does not read `LEN` always passes validation. -/
theorem not_raisesLenRange {i : Instr} (h : readsLen i = false) (s : State) : ¬ raisesLenRange i s := by
  simp [raisesLenRange, h]

/-- A command passes validation when `LEN` is at most `BUF_SIZE`. -/
theorem valid_of_len_le {s : State} (h : s.len ≤ s.params.bufSize) (i : Instr) : ¬ raisesLenRange i s :=
  fun hc => absurd hc.2 (by omega)

/-- Every write region of a command that passed validation lies inside the byte memories. -/
theorem writeRegions_storage {i : Instr} {s : State} (hv : ¬ raisesLenRange i s) {r : Region}
    (hr : r ∈ writeRegions i s.len) {k : Nat} (hk : r.holds k = true) : isStorage s.params.bufSize k = true := by
  have hlen : readsLen i = true → s.len ≤ s.params.bufSize := fun h => by
    by_contra hc
    exact hv ⟨h, by omega⟩
  rw [Region.holds_iff] at hk
  simp only [isStorage, storageRegions, List.any_cons, List.any_nil, Region.holds, haRegion, hbRegion, pkeyRegion, pubRegion,
    sk32Region, tblRegion, bufRegion, Bool.or_eq_true, Bool.and_eq_true, decide_eq_true_eq, Bool.or_false]
  cases i <;> simp only [writeRegions, List.mem_cons, List.not_mem_nil, or_false] at hr
  all_goals try (have := hlen rfl)
  all_goals try (rcases hr with rfl | rfl)
  all_goals simp only [haRegion, hbRegion, pkeyRegion, sk32Region, tblRegion, bufRegion] at hk
  all_goals omega

end Sys2Proof.Machine
end

