-- ==== Sys2Proof/Laws/Loops.lean ====
section
/-! SUPPORT. The loops of the commands against the index-by-index working values of Safety.lean, and the passes over joined payloads. -/

namespace Sys2Proof.Machine

/-! ### Forms of the primitives -/

theorem byteMix_eq (t : List Byte) (i : Nat) (v : Byte) :
    byteMix t i v = if i % 2 = 0 then not8 (v ^^^ byteAt t i) else v ^^^ byteAt t i := by
  simp [byteMix, isEven]

theorem pattern_eq (s : Byte) : pattern s = (s &&& 7).setWidth 3 := by
  revert s
  decide +kernel

theorem lowBit_iff (b : Byte) : lowBit b = true ↔ b.toNat % 2 = 1 := by
  rw [lowBit, BitVec.getLsbD, Nat.testBit_zero]
  simp

/-- The pattern of a state has the parity of the state. -/
theorem pattern_low (s : Byte) : (pattern s).getLsbD 0 = lowBit s := by simp [pattern, lowBit]

theorem State.bytes32_eq (s : State) (b : Nat) : s.bytes32 b = s.bytes { base := b, size := 32 } := by
  simp [State.bytes32, State.bytes, Memory.readBlock_eq_map, State.byte]

theorem State.byteAt_table (s : State) {i : Nat} (h : i < 256) : byteAt (s.bytes tblRegion) i = s.byte (0x0100 + i) :=
  s.byteAt_bytes tblRegion (by simpa [tblRegion] using h)

theorem State.byteAt_payload (s : State) {i : Nat} (h : i < s.len) : byteAt s.payload i = s.byte (0x1000 + i) :=
  s.byteAt_bytes s.payloadRegion (by simpa [State.payloadRegion, bufRegion] using h)

/-- A store below 0x1000 leaves the payload alone. -/
theorem State.payload_setBytes_below (s : State) (r : Region) {bs : List Byte} (hl : bs.length = r.size)
    (hd : r.base + r.size ≤ 0x1000) : (s.setBytes r bs).payload = s.payload :=
  State.bytes_setBytes_disjoint s r s.payloadRegion hl (.inr (by simpa [State.payloadRegion, bufRegion] using hd))

/-! ### EXPAND -/

theorem expandAccFrom_eq (key : List Byte) (f : Nat → Byte) (k : Nat) (h : ∀ i, i < 2 * k → byteAt key i = f i) :
    expandAccFrom 0 key k = expandAccAt f k := by
  induction k with
  | zero => rfl
  | succ k ih =>
    rw [expandAccFrom, expandAccAt, ih fun i hi => h i (by omega), h _ (by omega), h _ (by omega)]
    simp only [expandAccumulate, expandStepValue]
    have h1 : ∀ n : Word32, n.getLsbD 0 = true ↔ ¬ n.toNat % 2 = 0 := by
      intro n
      rw [BitVec.getLsbD, Nat.testBit_zero]
      simp
    have h2 : ∀ b : Byte, b.setWidth 32 = BitVec.ofNat 32 b.toNat := by
      intro b
      apply BitVec.eq_of_toNat_eq
      simp
    simp only [h1, h2, ite_not]

theorem littleEndianBytes_eq (n : Word32) : littleEndianBytes n = wordBytes n := by
  have h : ∀ k, n.extractLsb' k 8 = BitVec.ofNat 8 (n.toNat / 2 ^ k) := by
    intro k
    apply BitVec.eq_of_toNat_eq
    simp [Nat.shiftRight_eq_div_pow]
  simp only [littleEndianBytes, wordBytes, h]
  rfl

/-! ### STEPTAG -/

/-- The walk from offset `i` adds the terms of the multiples of the stride from `i` on. -/
theorem tagWalk_eq (payload : List Byte) (stride : Nat) (hs : 0 < stride) (fuel : Nat) : ∀ (i : Nat) (acc : Byte),
    i % stride = 0 → payload.length ≤ i + fuel →
    tagWalk payload stride fuel i acc = acc + BitVec.ofNat 8
      (∑ j ∈ (Finset.range payload.length).filter (fun j => i ≤ j ∧ j % stride = 0),
        (popcount8 (not8 (byteAt payload j)) + j % 256)) := by
  induction fuel with
  | zero =>
    intro i acc hi hl
    rw [Finset.filter_false_of_mem (fun j hj => by have := Finset.mem_range.mp hj; omega)]
    simp [tagWalk]
  | succ n ih =>
    intro i acc hi hl
    rw [tagWalk]
    split
    · rename_i hlt
      rw [ih _ _ (by rw [Nat.add_mod_right]; exact hi) (by omega)]
      have hins : (Finset.range payload.length).filter (fun j => i ≤ j ∧ j % stride = 0) =
          insert i ((Finset.range payload.length).filter (fun j => i + stride ≤ j ∧ j % stride = 0)) := by
        ext j
        simp only [Finset.mem_filter, Finset.mem_range, Finset.mem_insert]
        constructor
        · rintro ⟨h1, h2, h3⟩
          by_cases h : j = i
          · exact .inl h
          · refine .inr ⟨h1, ?_, h3⟩
            by_contra hc
            have h5 : (j - i) % stride = 0 := Nat.sub_mod_eq_zero_of_mod_eq (h3.trans hi.symm)
            rw [Nat.mod_eq_of_lt (by omega)] at h5
            omega
        · rintro (rfl | ⟨h1, h2, h3⟩)
          · exact ⟨hlt, le_refl _, hi⟩
          · exact ⟨h1, by omega, h3⟩
      rw [hins, Finset.sum_insert (by simp; omega), tagTerm]
      have key : ∀ A B : Nat, acc + (BitVec.ofNat 8 A + BitVec.ofNat 8 i) + BitVec.ofNat 8 B =
          acc + BitVec.ofNat 8 (A + i % 256 + B) := by
        intro A B
        apply BitVec.eq_of_toNat_eq
        simp only [BitVec.toNat_add, BitVec.toNat_ofNat]
        omega
      exact key _ _
    · rename_i hlt
      rw [Finset.filter_false_of_mem (fun j hj => by have := Finset.mem_range.mp hj; omega)]
      simp

theorem walkSum_eq (len stride : Nat) (buf : Nat → Byte) :
    walkSum len stride buf =
      ∑ j ∈ (Finset.range len).filter (fun j => 0 ≤ j ∧ j % stride = 0), (popcount8 (not8 (buf j)) + j % 256) := by
  unfold walkSum
  simp only [Nat.zero_le, true_and]
  rw [Finset.sum_eq_multiset_sum, Finset.filter_val, Finset.range_val]
  simp only [Multiset.range, Multiset.filter_coe, Multiset.map_coe, Multiset.sum_coe]
  congr 2

theorem keySum_eq (s : State) : keySum (s.bytes pkeyRegion) = keySumOf (fun x => s.byte (0x0040 + x)) := by
  unfold keySum keySumOf
  rw [show s.bytes pkeyRegion = (List.range 32).map (fun j => s.byte (0x0040 + j)) from s.bytes32_eq 0x0040 ▸ rfl,
    List.map_map]
  congr 1
  apply List.map_congr_left
  intro x _
  simp only [Function.comp, keyTerm]
  have := lowBit_iff (s.byte (0x0040 + x))
  by_cases h : lowBit (s.byte (0x0040 + x))
  · rw [if_pos h, if_neg (by have := this.mp h; omega)]
  · rw [if_neg h, if_pos (by have := mt this.mpr h; omega)]

theorem tagStride_eq (s : State) :
    tagStride (s.bytes pkeyRegion) s.payload =
      strideOf s.len (fun i => s.byte (0x1000 + i)) (fun x => s.byte (0x0040 + x)) := by
  have h3 : ∀ b : Byte, (b &&& 0x03).toNat = b.toNat % 4 := by decide +kernel
  have h5 : ∀ b : Byte, (b &&& 0x1F).toNat = b.toNat % 32 := by decide +kernel
  simp only [tagStride, strideOf, State.payload_length, h3, h5]
  by_cases h : s.len = 0
  · rw [if_pos h, if_pos h, s.byteAt_bytes pkeyRegion (by simp [pkeyRegion])]
    rfl
  · rw [if_neg h, if_neg h, s.byteAt_payload (by omega), s.byteAt_bytes pkeyRegion (by simp only [pkeyRegion]; omega)]
    rfl

/-! ### MIXTABLE, ENCRYPT and DECRYPT -/

theorem State.mixStates (s : State) {n : Nat} (h : n ≤ 256) :
    stateSeq mixStep s.roundState (byteAt (s.bytes tblRegion)) n =
      mixStateAt s.roundState (fun i => s.byte (0x0100 + i)) n := by
  rw [mixStateAt_eq]
  exact stateSeq_congr _ _ fun i hi => s.byteAt_table (by omega)

theorem State.payloadStates (s : State) (n : Nat) :
    stateSeq payloadStep s.roundState (fun k => byteAt (s.bytes tblRegion) ((0 + k) % 256)) n =
      payloadStateAt s.roundState (fun i => s.byte (0x0100 + i)) n := by
  rw [payloadStateAt_eq]
  exact stateSeq_congr _ _ fun i _ => by rw [Nat.zero_add, s.byteAt_table (Nat.mod_lt _ (by decide))]

/-- A pass over a joined payload goes on where the pass over its first part ended. -/
theorem encryptPass_append (r : RotParam) (t : List Byte) (i : Nat) (s : Byte) (p q : List Byte) :
    encryptPass r t i s (p ++ q) =
      ((encryptPass r t i s p).1 ++ (encryptPass r t (i + p.length) (encryptPass r t i s p).2 q).1,
        (encryptPass r t (i + p.length) (encryptPass r t i s p).2 q).2) := by
  induction p generalizing i s with
  | nil => rfl
  | cons b rest ih =>
    rw [List.cons_append, encryptPass, encryptPass]
    simp only [ih, List.cons_append, List.length_cons, show i + (rest.length + 1) = i + 1 + rest.length by omega]

theorem decryptPass_append (r : RotParam) (t : List Byte) (i : Nat) (s : Byte) (p q : List Byte) :
    decryptPass r t i s (p ++ q) =
      ((decryptPass r t i s p).1 ++ (decryptPass r t (i + p.length) (decryptPass r t i s p).2 q).1,
        (decryptPass r t (i + p.length) (decryptPass r t i s p).2 q).2) := by
  induction p generalizing i s with
  | nil => rfl
  | cons b rest ih =>
    rw [List.cons_append, decryptPass, decryptPass]
    simp only [ih, List.cons_append, List.length_cons, show i + (rest.length + 1) = i + 1 + rest.length by omega]

/-- A pass looks at its index modulo 256 only. -/
theorem encryptPass_congr_index (r : RotParam) (t : List Byte) {i j : Nat} (h : i % 256 = j % 256) (s : Byte)
    (p : List Byte) : encryptPass r t i s p = encryptPass r t j s p := by
  induction p generalizing i j s with
  | nil => rfl
  | cons b rest ih => rw [encryptPass, encryptPass, h, ih (i := i + 1) (j := j + 1) (by omega)]

theorem decryptPass_congr_index (r : RotParam) (t : List Byte) {i j : Nat} (h : i % 256 = j % 256) (s : Byte)
    (p : List Byte) : decryptPass r t i s p = decryptPass r t j s p := by
  induction p generalizing i j s with
  | nil => rfl
  | cons b rest ih => rw [decryptPass, decryptPass, h, ih (i := i + 1) (j := j + 1) (by omega)]

end Sys2Proof.Machine
end

