-- ==== Sys2Proof/Laws/PerInstr.lean ====
section
/-! SUPPORT. The family `EncodingRow`: what every command has as syntax, one lemma for each constructor of `Instr`. -/

namespace Sys2Proof.Laws

/-- The row of a command in the table of R92: it is well formed (R91), the reserved bits of its byte are 000 (R90), `OP` is 0 to 7, `M`
is 1 only with `OP` = 1 or `OP` = 7 (R90), and the decoder selects it by that byte (R92). -/
def EncodingRow.Statement (i : Instr) : Prop :=
  i.wf = true ∧ rsvField (encode i) = 0 ∧ (opField (encode i)).toNat ≤ 7 ∧
  (modeBit (encode i) = true → (opField (encode i)).toNat = 1 ∨ (opField (encode i)).toNat = 7) ∧
  decodeTableWord 8 (encode i).toNat = some i

namespace EncodingRow

theorem nop : Statement .nop := by unfold Statement; decide
theorem hash16a : Statement .hash16a := by unfold Statement; decide
theorem hash16b : Statement .hash16b := by unfold Statement; decide
theorem mkpkey : Statement .mkpkey := by unfold Statement; decide
theorem derive : Statement .derive := by unfold Statement; decide
theorem expand : Statement .expand := by unfold Statement; decide
theorem steptag : Statement .steptag := by unfold Statement; decide
theorem mixtable : Statement .mixtable := by unfold Statement; decide
theorem encrypt : Statement .encrypt := by unfold Statement; decide
theorem decrypt : Statement .decrypt := by unfold Statement; decide

end EncodingRow

end Sys2Proof.Laws
end

