-- ==== Sys2Proof/Laws/Window.lean ====
section
/-! SUPPORT. The map of the host window (R72): the one place of every address, said once, and what a write to each place does to
the reads. -/

namespace Sys2Proof.Machine

/-- The byte memories as ranges of addresses (R72). -/
theorem isStorage_iff (n k : Nat) : isStorage n k = true ↔
    (0x0010 ≤ k ∧ k ≤ 0x002F) ∨ (0x0040 ≤ k ∧ k ≤ 0x009F) ∨ (0x0100 ≤ k ∧ k ≤ 0x01FF) ∨
    (0x1000 ≤ k ∧ k < 0x1000 + n) := by
  simp only [isStorage, storageRegions, List.any_cons, List.any_nil, Region.holds, haRegion, hbRegion, pkeyRegion, pubRegion,
    sk32Region, tblRegion, bufRegion, Bool.or_eq_true, Bool.and_eq_true, decide_eq_true_eq, Bool.or_false]
  omega

/-- Above the registers, an address is a byte of a memory or reserved. -/
theorem placeOf_high {n : Nat} {a : Addr} (h : 0x000A ≤ a.toNat) :
    placeOf n a = if isStorage n a.toNat then .storage else .reserved := by
  unfold placeOf
  split <;> first | omega | rfl

theorem placeOf_storage {n : Nat} {a : Addr} (h : isStorage n a.toNat = true) : placeOf n a = .storage := by
  have := (isStorage_iff n a.toNat).mp h
  rw [placeOf_high (by omega), if_pos h]

/-- The address map of R72, the registers by address and the memories by `isStorage`. -/
theorem placeOf_cases (n : Nat) (a : Addr) :
    (a = 0x0000 ∧ placeOf n a = .id) ∨ (a = 0x0001 ∧ placeOf n a = .ver) ∨ (a = 0x0002 ∧ placeOf n a = .cmd) ∨
    (a = 0x0003 ∧ placeOf n a = .status) ∨ (a = 0x0004 ∧ placeOf n a = .ctrl) ∨
    (a = 0x0005 ∧ placeOf n a = .roundState) ∨ (a = 0x0006 ∧ placeOf n a = .tag) ∨
    (a = 0x0007 ∧ placeOf n a = .reserved) ∨
    (a = 0x0008 ∧ placeOf n a = .lenLo) ∨ (a = 0x0009 ∧ placeOf n a = .lenHi) ∨
    (0x000A ≤ a.toNat ∧ isStorage n a.toNat = true ∧ placeOf n a = .storage) ∨
    (0x000A ≤ a.toNat ∧ isStorage n a.toNat = false ∧ placeOf n a = .reserved) := by
  by_cases h : 0x000A ≤ a.toNat
  · rw [placeOf_high h]
    cases hs : isStorage n a.toNat <;> simp [h]
  · have e : ∀ k : Nat, a.toNat = k → k < 2 ^ 16 → a = BitVec.ofNat 16 k := fun k hk hlt => by
      apply BitVec.eq_of_toNat_eq
      rw [hk, BitVec.toNat_ofNat, Nat.mod_eq_of_lt hlt]
    have h7 : isStorage n 7 = false := by
      rw [← Bool.not_eq_true, isStorage_iff]
      omega
    obtain h0 | h0 | h0 | h0 | h0 | h0 | h0 | h0 | h0 | h0 : a.toNat = 0 ∨ a.toNat = 1 ∨ a.toNat = 2 ∨ a.toNat = 3 ∨
        a.toNat = 4 ∨ a.toNat = 5 ∨ a.toNat = 6 ∨ a.toNat = 7 ∨ a.toNat = 8 ∨ a.toNat = 9 := by omega
    all_goals
      have ha := e _ h0 (by omega)
      subst ha
      simp [placeOf, h7]

/-- The reserved places are the reserved addresses of R72. -/
theorem placeOf_reserved_iff (n : Nat) (a : Addr) : placeOf n a = .reserved ↔ isReservedAddress n a.toNat := by
  have hs := isStorage_iff n a.toNat
  rcases placeOf_cases n a with h | h | h | h | h | h | h | h | h | h | h | h
  all_goals
    first
    | obtain ⟨h1, h2, h3⟩ := h
    | (obtain ⟨h1, h3⟩ := h; rw [h3]; subst h1; simp [isReservedAddress] <;> omega)
  · have := hs.mp h2
    rw [h3]
    simp only [isReservedAddress, reduceCtorEq, false_iff]
    omega
  · rw [h2] at hs
    rw [h3]
    simp only [isReservedAddress, true_iff]
    simp only [Bool.false_eq_true, false_iff] at hs
    omega

/-- A write to the window leaves the host's own fields and the parameters alone. -/
theorem windowWrite_keeps (s : State) (a : Addr) (v : Byte) :
    (s.windowWrite a v).params = s.params ∧ (s.windowWrite a v).bus = s.bus ∧
    (s.windowWrite a v).resetIn = s.resetIn ∧ (s.windowWrite a v).replies = s.replies := by
  unfold State.windowWrite State.writePlace State.writeCtrl
  split <;> first | (split <;> simp) | simp

end Sys2Proof.Machine
end

