-- ==== Sys2Proof/Tests/Slice0.lean ====
section
/-! SUPPORT. The model's own tests: command bytes written out from the spec's encoding, the checks of WellFormed, small cases with results
taken from spec/95_test_vectors.md or the examples of the rules, and, for every obligation with hypotheses, a witness that meets them. -/

set_option Elab.async false

namespace Sys2Proof.Tests

open Sys2Proof Sys2Proof.Machine

/-! ### Helpers -/

/-- The state with bytes stored from address `k` on. -/
def put (s : State) (k : Nat) (bs : List Byte) : State := { s with mem := Memory.writeBlock s.mem k bs }

/-- The state with a value of `LEN`. -/
def setLen (s : State) (n : Nat) : State := { s with lenLo := BitVec.ofNat 8 n, lenHi := BitVec.ofNat 8 (n / 256) }

/-- The state a command leaves. -/
def after (s : State) (i : Instr) : State :=
  match exec i s with
  | .next t => t
  | .fault _ => s
  | .refused _ => s

/-- The state a step leaves. -/
def next (s : State) : State :=
  match step s with
  | .next t => t
  | .fault _ => s
  | .refused _ => s

theorem exec_after (s : State) (i : Instr) : exec i s = .next (after s i) := by
  unfold after
  rw [exec_eq]

theorem put_wf {s : State} (h : Memory.wf s.mem) (k : Nat) (bs : List Byte) : Memory.wf (put s k bs).mem :=
  Memory.writeBlock_wf h k bs

theorem reset_wf : Memory.wf State.reset.mem := Memory.wf_nil

/-! ### Decoding: RSV, M and OP written out (R90, R92, R94) -/

theorem test_decode_nop : decode 0b00000000 = .ok .nop := by decide
theorem test_decode_hash16a : decode 0b00000001 = .ok .hash16a := by decide
theorem test_decode_hash16b : decode 0b00010001 = .ok .hash16b := by decide
theorem test_decode_mkpkey : decode 0b00000010 = .ok .mkpkey := by decide
theorem test_decode_derive : decode 0b00000011 = .ok .derive := by decide
theorem test_decode_expand : decode 0b00000100 = .ok .expand := by decide
theorem test_decode_steptag : decode 0b00000101 = .ok .steptag := by decide
theorem test_decode_mixtable : decode 0b00000110 = .ok .mixtable := by decide
theorem test_decode_encrypt : decode 0b00000111 = .ok .encrypt := by decide
theorem test_decode_decrypt : decode 0b00010111 = .ok .decrypt := by decide
theorem test_decode_reserved_bits : decode 0b00100001 = .error .reservedBits := by decide
theorem test_decode_reserved_op : decode 0b00001000 = .error .reservedOp := by decide
theorem test_decode_reserved_mode : decode 0b00010110 = .error .reservedMode := by decide

/-- A command of every family, by the word of its row in spec/opcode_table.json. -/
theorem test_table_words :
    decodeTableWord 8 0x00 = some .nop ∧ decodeTableWord 8 0x11 = some .hash16b ∧ decodeTableWord 8 0x04 = some .expand ∧
    decodeTableWord 8 0x05 = some .steptag ∧ decodeTableWord 8 0x17 = some .decrypt ∧ decodeTableWord 8 0xFF = none := by
  decide

/-! ### WellFormed: ill-formed terms are refused -/

theorem test_params_default : Params.defaults.wf = true := by decide
theorem test_params_largest : { Params.defaults with bufSize := 61440 }.wf = true := by decide
theorem test_params_no_buffer : { Params.defaults with bufSize := 0 }.wf = false := by decide
theorem test_params_buffer_too_large : { Params.defaults with bufSize := 61441 }.wf = false := by decide
theorem test_pseudo_len_largest : (Pseudo.setLen 0xFFFF).wf = true := by decide
theorem test_pseudo_len_too_large : (Pseudo.setLen 0x10000).wf = false := by decide
theorem test_pseudo_write_past_end : (Pseudo.wrBlk 0xFFFF [0x01, 0x02]).wf = false := by decide
theorem test_pseudo_read_past_end : (Pseudo.rdBlk 0xFFF0 17).wf = false := by decide

/-! ### Primitives (V1, V2, R10, E2, E3) -/

/-- V1, `UNROT[1]` and `ROT[1]` with the swap. -/
theorem test_rot_pattern1 : [0x01, 0x80, 0xA5, 0x3C, 0x0F].map (rot .defaults 1) = [0x08, 0x01, 0x69, 0xF0, 0x3C] ∧
    [0x01, 0x80, 0xA5, 0x3C, 0x0F].map (unrot .defaults 1) = [0x80, 0x10, 0x96, 0x0F, 0xC3] := by decide

/-- V1, the plain rotations 2 to 7 of 0xA5. -/
theorem test_rot_patterns : [2, 3, 4, 5, 6, 7].map (fun p => rot .defaults p 0xA5) = [0x4B, 0x5A, 0xB4, 0x69, 0xD2, 0x2D] ∧
    [2, 3, 4, 5, 6, 7].map (fun p => unrot .defaults p 0xA5) = [0xD2, 0x5A, 0x2D, 0x96, 0x4B, 0xB4] := by decide

/-- V2. -/
theorem test_byteMix : byteMix [0x0F, 0x00] 0 0x35 = 0xC5 ∧ byteMix [0x00, 0x0F] 1 0x35 = 0x3A ∧
    mixI 2 0x00 0x00 = 0xFF ∧ mixI 3 0x00 0x00 = 0x00 := by decide

/-- V3: a one-byte input, where every slot is updated once. -/
theorem test_h16ref_one_byte : h16ref [0x41] =
    [0xC1, 0xF7, 0x17, 0x51, 0x25, 0xC3, 0x2B, 0x4D, 0x39, 0xEF, 0xCF, 0xA9, 0xCD, 0x7B, 0xD3, 0x65] := by decide +kernel

/-- E2: the tag 0x64 under the random byte 0xA5. -/
theorem test_frame_tag : obfuscateTag 0x64 0xA5 = 0x3E ∧ recoverTag 0xA5 0x3E = 0x64 := by decide

/-- E3: a frame of 34 bytes is refused, one of 35 is accepted. -/
theorem test_frame_length : (parseFrame (List.replicate 34 0x00)).toOption = none ∧
    (parseFrame (List.replicate 35 0x00)).toOption.isSome = true := by decide

/-! ### Commands -/

/-- R115: from reset, `STATUS` = 0x02 and nothing else differs. -/
theorem test_nop : next (State.reset.withFetchWord 8 0x00) =
    { State.reset with status := { done := true, err := false, errcode := 0 } } := by decide +kernel

/-- R134: "abc". -/
theorem test_hash16a_abc : (after (setLen (put State.reset 0x1000 [0x61, 0x62, 0x63]) 3) .hash16a).bytes haRegion =
    [0x27, 0x00, 0xC1, 0x84, 0x9B, 0xC8, 0x0D, 0x2C, 0xFF, 0x80, 0xF9, 0x54, 0x13, 0xF8, 0xF5, 0xCC] := by decide +kernel

/-- V3: the empty payload, and `STATUS` of the whole command run as the first after reset. -/
theorem test_hash16a_empty : (next (State.reset.withFetchWord 8 0x01)).bytes haRegion =
      [0x5A, 0x77, 0x94, 0xB1, 0xCE, 0xEB, 0x08, 0x25, 0x42, 0x5F, 0x7C, 0x99, 0xB6, 0xD3, 0xF0, 0x0D] ∧
    (next (State.reset.withFetchWord 8 0x01)).statusByte = 0x02 := by decide +kernel

/-- R135: "example.org", and `HA` is not modified. -/
theorem test_hash16b_domain :
    let t := after (setLen (put State.reset 0x1000 [0x65, 0x78, 0x61, 0x6D, 0x70, 0x6C, 0x65, 0x2E, 0x6F, 0x72, 0x67]) 11) .hash16b
    t.bytes hbRegion =
      [0x8D, 0x94, 0x5B, 0x06, 0x49, 0xB0, 0xBF, 0xB2, 0x25, 0xDC, 0x83, 0x9E, 0x71, 0x48, 0x67, 0x1A] ∧
    t.bytes haRegion = List.replicate 16 0x00 := by decide +kernel

/-- V4, second row: `HA` = 16 x FF and `HB` = 16 x 00. -/
theorem test_mkpkey_row2 : (after (put State.reset 0x0010 (List.replicate 16 0xFF)) .mkpkey).bytes pkeyRegion =
    [0x00, 0xFF, 0x00, 0xFF, 0x00, 0xFF, 0x00, 0xFF, 0x00, 0xFF, 0x00, 0xFF, 0x00, 0xFF, 0x00, 0xFF,
     0xFF, 0x00, 0xFF, 0x00, 0xFF, 0x00, 0xFF, 0x00, 0xFF, 0x00, 0xFF, 0x00, 0xFF, 0x00, 0xFF, 0x00] := by decide +kernel

/-- V5, second row: `PKEY` = 32 x 00 and `PUB` = 32 x FF. -/
theorem test_derive_row2 : (after (put State.reset 0x0060 (List.replicate 32 0xFF)) .derive).bytes sk32Region =
    [0x5A, 0x58, 0x18, 0xE7, 0xE4, 0xF8, 0x7E, 0x17, 0xCE, 0x18, 0x04, 0x57, 0x98, 0xE8, 0xAA, 0xB7,
     0xE2, 0x68, 0x10, 0xF7, 0x8C, 0x48, 0x76, 0xE7, 0x16, 0x88, 0x7C, 0x47, 0xA0, 0x98, 0xA2, 0x07] := by decide +kernel

/-- V6, fourth row: `SK32` = 00 01 .. 1F, the first two slices, and the wipe. -/
theorem test_expand_row4 :
    let t := after (put State.reset 0x0080 ((List.range 32).map (BitVec.ofNat 8))) .expand
    t.bytes { base := 0x0100, size := 32 } =
      [0x36, 0x3D, 0x82, 0xF3, 0xBE, 0x41, 0x42, 0xDF, 0x86, 0x75, 0x82, 0x1B, 0x8E, 0x89, 0x22, 0xF7,
       0xFB, 0x06, 0xC5, 0xD2, 0x2F, 0x46, 0x91, 0x72, 0x13, 0x46, 0x6D, 0xA2, 0x07, 0x96, 0x39, 0xD2] ∧
    t.bytes sk32Region = List.replicate 32 0x00 := by decide +kernel

/-- The key `Kidx` of V7. -/
def kidx (s : State) : State := put s 0x0040 ((List.range 32).map (BitVec.ofNat 8))

/-- V7: 8 x 01 under `Kidx`, the stride 2. -/
theorem test_steptag_stride2 : (after (setLen (put (kidx State.reset) 0x1000 (List.replicate 8 0x01)) 8) .steptag).tag = 0x47 := by
  decide +kernel

/-- V8: one byte 01 under `Kidx`, the subtracting branch. -/
theorem test_steptag_odd : (after (setLen (put (kidx State.reset) 0x1000 [0x01]) 1) .steptag).tag = 0x88 := by decide +kernel

/-- The table `(7i + 3) mod 256` of V9 and V10. -/
def table73 (s : State) : State := put s 0x0100 ((List.range 256).map (fun i => BitVec.ofNat 8 (7 * i + 3)))

/-- The state of the example of R173: that table, `PUB[x]` = `(0x11 x + 7) mod 256`, seed 0x13. -/
def mixExample : State :=
  (put (table73 State.reset) 0x0060 ((List.range 32).map (fun x => BitVec.ofNat 8 (0x11 * x + 7)))).setRoundState 0x13

/-- The bytes of a block stored by `put`, and the bytes outside it. -/
theorem put_byte {s : State} (h : Memory.wf s.mem) (k : Nat) {bs : List Byte} {i : Nat} (hi : i < bs.length) :
    (put s k bs).byte (k + i) = byteAt bs i := Memory.read_writeBlock_inside h k hi

theorem put_byte_outside (s : State) (k : Nat) (bs : List Byte) {j : Nat} (hj : j < k ∨ k + bs.length ≤ j) :
    (put s k bs).byte j = s.byte j := Memory.read_writeBlock_outside s.mem bs hj

theorem table73_byte {i : Nat} (h : i < 256) : (table73 State.reset).byte (0x0100 + i) = BitVec.ofNat 8 (7 * i + 3) := by
  rw [table73, put_byte reset_wf _ (by rw [List.length_map, List.length_range]; exact h), byteAt_map_range _ h]

/-- The first entries of the example of R173 (they decide its first bytes): V9, third row. -/
theorem test_mixtable_first_bytes :
    (after { put (put State.reset 0x0100 [3, 10, 17, 24, 31, 38, 45, 52]) 0x0060
        [0x07, 0x18, 0x29, 0x3A, 0x4B, 0x5C, 0x6D, 0x7E] with roundState := 0x13 } .mixtable).bytes
      { base := 0x0100, size := 8 } = [0xDF, 0x84, 0x7C, 0x22, 0xBA, 0x9E, 0xFD, 0xA4] := by decide +kernel

/-- V9, first row: an empty table under the seed 0x00, the last entries and the final state. -/
theorem test_mixtable_final_state :
    let t := after State.reset .mixtable
    t.roundState = 0xFF ∧ t.bytes { base := 0x01FC, size := 4 } = [0xFF, 0x00, 0xFF, 0x00] := by decide +kernel

/-- The state of the examples of R174 and R175, with the bytes of `BUF`. -/
def passExample (bs : List Byte) : State := { setLen (put (table73 State.reset) 0x1000 bs) bs.length with roundState := 0x5A }

theorem passExample_wf (bs : List Byte) : Memory.wf (passExample bs).mem := put_wf (put_wf reset_wf _ _) _ _

theorem passExample_table (bs : List Byte) : ∀ i, i < 256 → (passExample bs).byte (0x0100 + i) = BitVec.ofNat 8 (7 * i + 3) := by
  intro i h
  exact (put_byte_outside (table73 State.reset) 0x1000 bs (.inl (by omega))).trans (table73_byte h)

theorem passExample_byte {bs : List Byte} {i : Nat} (h : i < bs.length) : (passExample bs).byte (0x1000 + i) = byteAt bs i :=
  put_byte (put_wf reset_wf _ _) 0x1000 h

theorem passExample_payload (bs : List Byte) (h : bs.length < 256) : (passExample bs).payloadBytes = bs := by
  have hl : (passExample bs).len = bs.length := by
    show (BitVec.ofNat 8 (bs.length / 256) ++ BitVec.ofNat 8 bs.length : BitVec 16).toNat = bs.length
    rw [Nat.div_eq_of_lt h, BitVec.toNat_append]
    simp [Nat.mod_eq_of_lt h]
  refine bytes_ext (by simp [State.payloadBytes, hl]) fun i hi => ?_
  have hi' : i < bs.length := by simpa [State.payloadBytes, hl] using hi
  rw [State.payloadBytes, byteAt_map_range _ (by rw [hl]; exact hi'), passExample_byte hi']

/-- R174, V10: the first entries of the table and four bytes of `BUF`. -/
theorem test_encrypt :
    let t := after { setLen (put (put State.reset 0x0100 [3, 10, 17, 24]) 0x1000 [0x00, 0x11, 0x22, 0x33]) 4 with
      roundState := 0x5A } .encrypt
    t.payload = [0x7E, 0x63, 0x99, 0x56] ∧ t.roundState = 0x5A := by decide +kernel

/-- R175, V10. -/
theorem test_decrypt :
    let t := after { setLen (put (put State.reset 0x0100 [3, 10, 17, 24]) 0x1000 [0x7E, 0x63, 0x99, 0x56]) 4 with
      roundState := 0x5A } .decrypt
    t.payload = [0x00, 0x11, 0x22, 0x33] ∧ t.roundState = 0x5A := by decide +kernel

/-! ### Errors and the host window -/

/-- R191: `STATUS` after an illegal byte is 0x0E: `DONE`, `ERR` and code 1. -/
theorem test_illegal_status : (next (State.reset.withFetchWord 8 0x10)).statusByte = 0x0E ∧
    (next (State.reset.withFetchWord 8 0x10)).cmd = 0x10 := by decide +kernel

/-- R192, V12: `LEN` = 4097 gives `STATUS` = 0x16, code 2; `LEN` = `BUF_SIZE` does not. -/
theorem test_lenRange_status : (after (setLen State.reset 4097) .encrypt).statusByte = 0x16 ∧
    (after (setLen State.reset 4096) .encrypt).statusByte = 0x02 := by decide +kernel

/-- R74: a reserved address is no storage. -/
theorem test_reserved : (State.reset.windowWrite 0x0030 0xFF) = State.reset ∧ (State.reset.windowRead 0xFFFF) = 0x00 := by
  decide +kernel

/-- R78: a read of `TAG` behind a command stalls; a read of `STATUS` does not, and reads `BUSY`. -/
theorem test_stall :
    let s : State := { State.reset with flight := some { byte := 0x00, left := 1 } }
    (next { s with bus := [.read 0x0006] }).replies = [] ∧ (next { s with bus := [.read 0x0003] }).replies = [0x01] := by
  decide +kernel

/-- R97: the two examples. -/
theorem test_transaction_words : transactionOf 0x80000206 = .ok (.write 0x0002 0x06) ∧
    transactionOf 0x00000300 = .ok (.read 0x0003) ∧ transactionOf 0x01000300 = .error .reservedBits ∧
    transactionOf 0x00000301 = .error .dataOfRead := by decide

/-! ### Witnesses: every obligation with hypotheses has states and operands that meet them -/

theorem witness_DecodeInvertsEncode : Instr.nop.wf = true ∧ Instr.decrypt.wf = true := by decide

/-- A byte of each group of illegal bytes, and a state in which the host writes it to `CMD`. -/
theorem witness_IllegalBytesChangeOnlyCmdAndStatus :
    isCommand 0x20 = false ∧ isCommand 0xFF = false ∧ isCommand 0x08 = false ∧ isCommand 0x1F = false ∧
    isCommand 0x10 = false ∧ isCommand 0x16 = false ∧ State.reset.flight = none ∧ State.reset.resetIn = [] ∧
    ({ State.reset with bus := [.write 0x0002 0xFF, .read 0x0003] } : State).bus =
      .write 0x0002 0xFF :: [.read 0x0003] := by decide

/-- A busy block with listed memory and something for the host to do. -/
def busyState : State :=
  { State.reset with
    cmd := 0x11
    ie := true
    lenLo := 0x02
    mem := [(0x0040, 0x07), (0x1000, 0x61), (0x1FFF, 0x62)]
    flight := some { byte := 0x11, left := 2 }
    bus := [.write 0x0003 0x06, .wait, .write 0x0040 0x05] }

theorem witness_StepKeepsTheInvariant : busyState.Inv ∧ step busyState = .next (next busyState) := by
  refine ⟨by decide +kernel, ?_⟩
  unfold next
  obtain ⟨t, h, -⟩ := step_result busyState
  rw [h]

theorem witness_StepKeepsTheParameters : step busyState = .next (next busyState) := witness_StepKeepsTheInvariant.2

theorem witness_ResetGivesEveryResetValue :
    ({ busyState with resetIn := [true, false] } : State).resetIn = true :: [false] ∧
    (0x02 : Byte).getLsbD 1 = true ∧ (0xFF : Byte).getLsbD 1 = true := by decide

theorem witness_HardwareResetAbortsAndRestores :
    ({ busyState with resetIn := [true], bus := [.read 0x0040] } : State).resetIn = true :: [] ∧
    ({ busyState with resetIn := [true], bus := [.read 0x0040] } : State).bus = .read 0x0040 :: [] := by decide

theorem witness_SoftResetByCtrlWrite :
    (({ State.reset with bus := [.write 0x0004 0x03] } : State).bus = .write 0x0004 0x03 :: [] ∧
      ({ State.reset with bus := [.write 0x0004 0x03] } : State).flight = none) ∧
    (({ busyState with bus := [.write 0x0004 0x03] } : State).bus = .write 0x0004 0x03 :: [] ∧
      ({ busyState with bus := [.write 0x0004 0x03] } : State).resetIn = [] ∧ (0x03 : Byte).getLsbD 1 = true ∧
      ({ busyState with bus := [.write 0x0004 0x03] } : State).flight = some { byte := 0x11, left := 1 + 1 }) := by decide

theorem witness_SoftResetInTheLastCycle :
    let s : State := { State.reset.startCommand 0x06 with bus := [.write 0x0004 0x02, .read 0x0003] }
    s.flight = some { byte := 0x06, left := 0 } ∧ s.resetIn = [] ∧ s.bus = .write 0x0004 0x02 :: [.read 0x0003] ∧
    (0x02 : Byte).getLsbD 1 = true := by decide

theorem witness_CmdWriteIssuesOrStalls :
    (({ State.reset with bus := [.write 0x0002 0x06] } : State).resetIn = [] ∧
      ({ State.reset with bus := [.write 0x0002 0x06] } : State).bus = .write 0x0002 0x06 :: [] ∧
      ({ State.reset with bus := [.write 0x0002 0x06] } : State).busy = false) ∧
    (({ busyState with bus := [.write 0x0002 0x06] } : State).resetIn = [] ∧
      ({ busyState with bus := [.write 0x0002 0x06] } : State).bus = .write 0x0002 0x06 :: [] ∧
      ({ busyState with bus := [.write 0x0002 0x06] } : State).flight = some { byte := 0x11, left := 2 }) := by decide

/-- With no level of the reset input pending, and with a low level pending. -/
theorem witness_StepRunsTheDecodedCommand :
    (State.reset.startCommand 0x17).flight = some { byte := 0x17, left := 0 } ∧ decode 0x17 = .ok .decrypt ∧
    (State.reset.startCommand 0x17).resetIn.head? ≠ some true ∧
    ({ State.reset.startCommand 0x17 with resetIn := [false, true] } : State).resetIn.head? ≠ some true := by decide

theorem witness_PlacedCommandRunsNext : State.reset.resetIn = [] ∧ busyState.resetIn = [] := by decide

/-- `LEN` at, just above and far above `BUF_SIZE`. -/
theorem witness_CompletionSetsTheFlags :
    (readsLen .hash16a = true ∧ (setLen State.reset 4097).params.bufSize < (setLen State.reset 4097).len) ∧
    ¬ (readsLen .hash16a = true ∧ (setLen State.reset 4096).params.bufSize < (setLen State.reset 4096).len) ∧
    ¬ (readsLen .nop = true ∧ (setLen State.reset 65535).params.bufSize < (setLen State.reset 65535).len) ∧
    isCommand 0x12 = false := by decide

theorem witness_ErrorsWriteNothingButStatus :
    readsLen .decrypt = true ∧ (setLen State.reset 65535).params.bufSize < (setLen State.reset 65535).len ∧
    isCommand 0xE0 = false := by decide

theorem witness_LenRangeExactlyForTheCommandsThatReadLen :
    Instr.steptag ∈ ([.hash16a, .hash16b, .steptag, .encrypt, .decrypt] : List Instr) ∧
    (setLen State.reset 4097).params.bufSize < (setLen State.reset 4097).len ∧
    Instr.mixtable ∈ ([.nop, .mkpkey, .derive, .expand, .mixtable] : List Instr) := by decide

/-- An exempt access, a stalled access (also in the last cycle), and a soft reset with an access after it. -/
theorem witness_HostAccessesWhileBusy :
    (busyState.flight = some { byte := 0x11, left := 1 + 1 } ∧ busyState.resetIn = [] ∧
      busyState.bus = .write 0x0003 0x06 :: [.wait, .write 0x0040 0x05] ∧
      (HostOp.write 0x0003 0x06).exempt busyState.params.bufSize = true) ∧
    (({ busyState with bus := [.write 0x0040 0x05] } : State).bus = .write 0x0040 0x05 :: [] ∧
      (HostOp.write 0x0040 0x05).exempt busyState.params.bufSize = false ∧
      ({ busyState with flight := some { byte := 0x11, left := 0 } } : State).flight = some { byte := 0x11, left := 0 }) ∧
    (({ busyState with bus := [.write 0x0004 0x02, .read 0x0040] } : State).bus =
        .write 0x0004 0x02 :: .read 0x0040 :: [] ∧ (0x02 : Byte).getLsbD 1 = true) := by decide

/-- The exempt accesses at the ends of the ranges of R72, and accesses beside them that stall. -/
theorem witness_HostAccessesWhileBusy_addresses :
    isReservedAddress 4096 0x0007 ∧ isReservedAddress 4096 0x000A ∧ isReservedAddress 4096 0x000F ∧
    isReservedAddress 4096 0x0030 ∧ isReservedAddress 4096 0x003F ∧ isReservedAddress 4096 0x00A0 ∧
    isReservedAddress 4096 0x00FF ∧ isReservedAddress 4096 0x0200 ∧ isReservedAddress 4096 0x0FFF ∧
    isReservedAddress 4096 0x2000 ∧ isReservedAddress 4096 0xFFFF ∧ ¬ isReservedAddress 4096 0x1FFF ∧
    ¬ isReservedAddress 4096 0x0010 ∧ ¬ isReservedAddress 61440 0xFFFF := by
  refine ⟨?_, ?_, ?_, ?_, ?_, ?_, ?_, ?_, ?_, ?_, ?_, ?_, ?_, ?_⟩ <;> decide

theorem witness_CommandIsAtomicWhateverTheHostDoes :
    busyState.Inv ∧ busyState.flight = some { byte := 0x11, left := 2 } ∧ busyState.resetIn = [] ∧
    ∀ op ∈ busyState.bus.take 2, op.isSoftReset = false := by decide +kernel

theorem witness_CommandsEndWithinTheirLatency : busyState.flight = some { byte := 0x11, left := 2 } := by decide

/-- Two states that differ outside the read set of `STEPTAG` only: in `TAG`, in `PUB`, and in `BUF` at `LEN`. -/
def tagLeft : State := setLen (put (put State.reset 0x0040 [0x01, 0x02]) 0x1000 [0x05, 0x06]) 2
/-- The other state of that pair. -/
def tagRight : State := { put (put tagLeft 0x0060 [0x09]) 0x1002 [0x07] with tag := 0x33 }

theorem witness_CommandsReadAndWriteTheirSets :
    Memory.wf tagLeft.mem ∧ Memory.wf tagRight.mem ∧ tagLeft.params = tagRight.params ∧
    (readsLen .steptag = true → tagLeft.len = tagRight.len ∧ tagLeft.len ≤ tagLeft.params.bufSize) ∧
    (readsRoundState .steptag = true → tagLeft.roundState = tagRight.roundState) ∧
    (∀ r ∈ readRegions .steptag tagLeft.len, ∀ k, r.holds k = true → tagLeft.byte k = tagRight.byte k) ∧
    exec .steptag tagLeft = .next (after tagLeft .steptag) ∧ exec .steptag tagRight = .next (after tagRight .steptag) ∧
    writesTag .steptag = true := by
  refine ⟨put_wf (put_wf reset_wf _ _) _ _, put_wf (put_wf (put_wf (put_wf reset_wf _ _) _ _) _ _) _ _, rfl,
    fun _ => ⟨rfl, by decide⟩, fun _ => rfl, ?_, ?_, ?_, rfl⟩
  · have h : ∀ r ∈ readRegions .steptag tagLeft.len, ∀ i, i < r.size → tagLeft.byte (r.base + i) = tagRight.byte (r.base + i) := by
      decide +kernel
    intro r hr k hk
    rw [Region.holds_iff] at hk
    have := h r hr (k - r.base) (by omega)
    rwa [show r.base + (k - r.base) = k by omega] at this
  · exact exec_after _ _
  · exact exec_after _ _

/-- The smallest, the default and the largest buffer; the last index of a region. -/
theorem witness_WindowAddressMap :
    State.reset.params.wf = true ∧
    ({ State.reset with params := { Params.defaults with bufSize := 1 } } : State).params.wf = true ∧
    ({ State.reset with params := { Params.defaults with bufSize := 61440 } } : State).params.wf = true ∧
    61439 < ({ State.reset with params := { Params.defaults with bufSize := 61440 } } : State).params.bufSize := by decide

/-- The first and last address of every range, with the last byte of the largest buffer. -/
theorem witness_WindowReadsBackWhatWasWritten :
    Memory.wf busyState.mem ∧
    (∀ k ∈ [0x0010, 0x002F], 0x0010 ≤ k ∧ k ≤ 0x002F) ∧ (∀ k ∈ [0x0040, 0x009F], 0x0040 ≤ k ∧ k ≤ 0x009F) ∧
    (∀ k ∈ [0x0100, 0x01FF], 0x0100 ≤ k ∧ k ≤ 0x01FF) ∧
    (0x1000 ≤ (0x1FFF#16).toNat ∧ (0x1FFF#16).toNat < 0x1000 + busyState.params.bufSize) ∧
    (0xFFFF#16).toNat < 0x1000 + 61440 ∧ (0x0005#16).toNat = 0x0005 ∧ (0x0006#16).toNat = 0x0006 ∧
    (0x0008#16).toNat = 0x0008 ∧ (0x0009#16).toNat = 0x0009 ∧ (0x0010#16 : Addr) ≠ 0x1FFF#16 := by decide

theorem witness_ReservedAddressesReadZeroAndIgnoreWrites :
    isReservedAddress busyState.params.bufSize (0x0007#16).toNat ∧
    isReservedAddress busyState.params.bufSize (0x2000#16).toNat ∧
    isReservedAddress busyState.params.bufSize (0xFFFF#16).toNat := by decide

theorem witness_OnlyThreeWritesHaveSideEffects :
    Memory.wf busyState.mem ∧ (0x0005 : Addr) ≠ 0x0002 ∧ (0x0005 : Addr) ≠ 0x0003 ∧ (0x0005 : Addr) ≠ 0x0004 ∧
    (0x0004 : Addr) ≠ 0x0002 := by decide

theorem witness_StatusFieldsAndWriteOneToClear : busyState.Inv ∧ busyState.status.err = false := by decide +kernel

theorem witness_CtrlAndIrq :
    (0x02 : Byte).getLsbD 1 = true ∧ (0x01 : Byte).getLsbD 1 = false ∧ (0x06 : Byte).getLsbD 1 = true := by decide

/-- The counts at both ends of the range of R10, with the rotations they give (by hand). -/
theorem witness_RotationPatterns :
    (1 ≤ 1 ∧ 1 ≤ 7 ∧ rotl8 0x81 1 = 0x03) ∧ (1 ≤ 7 ∧ 7 ≤ 7 ∧ rotl8 0x03 7 = 0x81) := by decide

theorem witness_ChangedByteReachesEverySecondHashSlot :
    (0x61 : Byte) ≠ 0x62 ∧ 14 < 16 ∧ ([] : List Byte).length % 2 = 0 ∧ (([] : List Byte).length + 14) % 2 = 0 ∧
    (([0x61] : List Byte).length + 15) % 2 = 0 := by decide

/-- The states of the examples of R134 and R135, the empty payload, and a full and an overfull buffer. -/
theorem witness_HashOfThePayload :
    (Memory.wf (setLen (put State.reset 0x1000 [0x61, 0x62, 0x63]) 3).mem ∧
      (setLen (put State.reset 0x1000 [0x61, 0x62, 0x63]) 3).len ≤ 4096 ∧
      (setLen (put State.reset 0x1000 [0x61, 0x62, 0x63]) 3).payloadBytes = [0x61, 0x62, 0x63] ∧
      State.reset.params.hash = .h16ref) ∧
    (setLen (put State.reset 0x1000 [0x65, 0x78, 0x61, 0x6D, 0x70, 0x6C, 0x65, 0x2E, 0x6F, 0x72, 0x67]) 11).payloadBytes =
      [0x65, 0x78, 0x61, 0x6D, 0x70, 0x6C, 0x65, 0x2E, 0x6F, 0x72, 0x67] ∧
    State.reset.len = 0 ∧ (setLen State.reset 4096).len ≤ (setLen State.reset 4096).params.bufSize ∧
    (setLen State.reset 4097).params.bufSize < (setLen State.reset 4097).len := by decide +kernel

/-- The two cases of R136. -/
theorem witness_MkpkeyMixesBothHashes :
    Memory.wf State.reset.mem ∧ (∀ k, k < 16 → State.reset.byte (0x0010 + k) = 0 ∧ State.reset.byte (0x0020 + k) = 0) ∧
    (let s := put (put State.reset 0x0010
        [0x08, 0x4E, 0xC2, 0xDC, 0x5C, 0xA2, 0x66, 0xD8, 0xC0, 0x86, 0xCA, 0x54, 0x94, 0x9A, 0xDE, 0x00]) 0x0020
        [0x8D, 0x94, 0x5B, 0x06, 0x49, 0xB0, 0xBF, 0xB2, 0x25, 0xDC, 0x83, 0x9E, 0x71, 0x48, 0x67, 0x1A]
     Memory.wf s.mem ∧
     s.bytes { base := 0x0010, size := 16 } =
       [0x08, 0x4E, 0xC2, 0xDC, 0x5C, 0xA2, 0x66, 0xD8, 0xC0, 0x86, 0xCA, 0x54, 0x94, 0x9A, 0xDE, 0x00] ∧
     s.bytes { base := 0x0020, size := 16 } =
       [0x8D, 0x94, 0x5B, 0x06, 0x49, 0xB0, 0xBF, 0xB2, 0x25, 0xDC, 0x83, 0x9E, 0x71, 0x48, 0x67, 0x1A]) := by
  decide +kernel

theorem witness_DeriveMixesHashesAndPublicKey :
    Memory.wf State.reset.mem ∧ State.reset.params.hash = .h16ref ∧
    State.reset.bytes32 0x0040 = List.replicate 32 0x00 ∧ State.reset.bytes32 0x0060 = List.replicate 32 0x00 := by
  decide +kernel

/-- Equal pairs (also the example of R150), complementary pairs, and an accumulator that wraps: the first pair makes it 0x01, the second
subtracts 0xFF from it. -/
theorem witness_ExpandHashesTheRunningAccumulator :
    (Memory.wf State.reset.mem ∧ State.reset.params.hash = .h16ref ∧
      State.reset.bytes32 0x0080 = List.replicate 32 0x00 ∧
      ∀ k, k < 16 → State.reset.byte (0x0080 + 2 * k) = State.reset.byte (0x0080 + 2 * k + 1)) ∧
    (let s := put State.reset 0x0080 (List.replicate 16 [0x00, 0xFF]).flatten
     Memory.wf s.mem ∧ ∀ k, k < 16 → s.byte (0x0080 + 2 * k) ^^^ s.byte (0x0080 + 2 * k + 1) = 0xFF) ∧
    (let s := put State.reset 0x0080 [0x00, 0xFE]
     1 < 16 ∧ 0xFF = (not8 (s.byte (0x0080 + 2 * 1) ^^^ s.byte (0x0080 + (2 * 1 + 1)))).toNat ∧
     1 = (expandAccAt (fun x => s.byte (0x0080 + x)) 1).toNat ∧ 1 % 2 = 1 ∧ 1 < 0xFF) := by decide +kernel

/-- Two session keys with the same XOR in every pair. -/
theorem witness_ExpandDependsOnPairXorsOnly :
    let s := put State.reset 0x0080 [0x01, 0x02]
    let s' := put State.reset 0x0080 [0x03]
    Memory.wf s.mem ∧ Memory.wf s'.mem ∧ s.params.hash = s'.params.hash ∧
    (∀ k, k < 16 → s.byte (0x0080 + 2 * k) ^^^ s.byte (0x0080 + 2 * k + 1) =
      s'.byte (0x0080 + 2 * k) ^^^ s'.byte (0x0080 + 2 * k + 1)) ∧
    exec .expand s = .next (after s .expand) ∧ exec .expand s' = .next (after s' .expand) ∧
    0x0100 ≤ 0x01FF ∧ 0x01FF < 0x0200 :=
  ⟨put_wf reset_wf _ _, put_wf reset_wf _ _, rfl, by decide +kernel, exec_after _ _, exec_after _ _, by decide, by decide⟩

/-- The state of the example of R160, the empty payload, one byte, and both constant keys. -/
theorem witness_SteptagSumsTheWalkAndTheKey :
    (let s := setLen (put (kidx State.reset) 0x1000 [0x00, 0x03, 0x00]) 3
     s.len ≤ s.params.bufSize ∧ (∀ x, x < 32 → s.byte (0x0040 + x) = BitVec.ofNat 8 x) ∧ s.len = 3 ∧
     s.byte (0x1000 + 0) = 0x00 ∧ s.byte (0x1000 + 1) = 0x03 ∧ s.byte (0x1000 + 2) = 0x00) ∧
    State.reset.len = 0 ∧ (setLen State.reset 1).len = 1 ∧ (∀ x, x < 32 → State.reset.byte (0x0040 + x) = 0x00) ∧
    (∀ x, x < 32 → (put State.reset 0x0040 (List.replicate 32 0xFF)).byte (0x0040 + x) = 0xFF) ∧
    (setLen State.reset 4097).params.bufSize < (setLen State.reset 4097).len := by decide +kernel

/-- Two payloads under `Kidx` that differ in a byte the walk of stride 4 skips. -/
theorem witness_TagDependsOnVisitedBytesOnly :
    let s := setLen (put (kidx State.reset) 0x1000 [0x00, 0x03, 0x00]) 3
    let s' := setLen (put (kidx State.reset) 0x1000 [0x00, 0x03, 0x55]) 3
    s.params.bufSize = s'.params.bufSize ∧ s.len = s'.len ∧ s.len ≤ s.params.bufSize ∧
    (∀ x, x < 32 → s.byte (0x0040 + x) = s'.byte (0x0040 + x)) ∧
    (0 < s.len → s.byte (0x1000 + s.len / 2) = s'.byte (0x1000 + s.len / 2)) ∧
    (∀ i, i < s.len →
      i % strideOf s.len (fun i => s.byte (0x1000 + i)) (fun x => s.byte (0x0040 + x)) = 0 →
      s.byte (0x1000 + i) = s'.byte (0x1000 + i)) ∧
    exec .steptag s = .next (after s .steptag) ∧ exec .steptag s' = .next (after s' .steptag) ∧
    s.byte (0x1000 + 2) ≠ s'.byte (0x1000 + 2) :=
  ⟨rfl, by decide +kernel, by decide +kernel, by decide +kernel, by decide +kernel, by decide +kernel, exec_after _ _,
    exec_after _ _, by decide +kernel⟩

theorem witness_MixtableRewritesEveryEntry :
    Memory.wf mixExample.mem ∧ mixExample.params.rot = .defaults ∧
    (∀ i, i < 256 → mixExample.byte (0x0100 + i) = BitVec.ofNat 8 (7 * i + 3)) ∧
    (∀ x, x < 32 → mixExample.byte (0x0060 + x) = BitVec.ofNat 8 (0x11 * x + 7)) ∧ mixExample.roundState = 0x13 := by
  obtain ⟨bs, hbs⟩ : ∃ bs : List Byte, bs = (List.range 32).map (fun x => BitVec.ofNat 8 (0x11 * x + 7)) := ⟨_, rfl⟩
  have hm : ∀ k, mixExample.byte k = (put (table73 State.reset) 0x0060 bs).byte k := by
    intro k
    unfold mixExample State.byte
    rw [State.setRoundState_mem, hbs]
  have hl : bs.length = 32 := by rw [hbs, List.length_map, List.length_range]
  have hw : Memory.wf mixExample.mem := by
    unfold mixExample
    rw [State.setRoundState_mem]
    exact put_wf (put_wf reset_wf _ _) _ _
  refine ⟨hw, by decide +kernel, fun i h => ?_, fun x h => ?_, by decide +kernel⟩
  · rw [hm, put_byte_outside _ _ _ (.inr (by omega)), table73_byte h]
  · rw [hm, put_byte (s := table73 State.reset) (put_wf reset_wf _ _) 0x0060 (bs := bs) (by omega), hbs, byteAt_map_range _ h]

theorem witness_EncryptTransformsThePayload :
    let s := passExample [0x00, 0x11, 0x22, 0x33]
    Memory.wf s.mem ∧ s.len ≤ s.params.bufSize ∧ s.params.rot = .defaults ∧
    (∀ i, i < 256 → s.byte (0x0100 + i) = BitVec.ofNat 8 (7 * i + 3)) ∧ s.roundState = 0x5A ∧
    s.payloadBytes = [0x00, 0x11, 0x22, 0x33] ∧ (passExample []).len = 0 ∧
    (setLen s 4097).params.bufSize < (setLen s 4097).len :=
  ⟨passExample_wf _, by decide +kernel, rfl, passExample_table _, rfl, passExample_payload _ (by decide), by decide +kernel,
    by decide +kernel⟩

theorem witness_DecryptTransformsThePayload :
    let s := passExample [0x7E, 0x63, 0x99, 0x56]
    Memory.wf s.mem ∧ s.len ≤ s.params.bufSize ∧ s.params.rot = .defaults ∧
    (∀ i, i < 256 → s.byte (0x0100 + i) = BitVec.ofNat 8 (7 * i + 3)) ∧ s.roundState = 0x5A ∧
    s.payloadBytes = [0x7E, 0x63, 0x99, 0x56] ∧ (passExample []).len = 0 ∧
    (setLen s 4097).params.bufSize < (setLen s 4097).len :=
  ⟨passExample_wf _, by decide +kernel, rfl, passExample_table _, rfl, passExample_payload _ (by decide), by decide +kernel,
    by decide +kernel⟩

/-- The default patterns agree with themselves; no other choice of patterns can be computed with. -/
theorem witness_PolarityFixesThePatternsUsed :
    (∀ p : BitVec 3, p.getLsbD 0 = true → ∀ x, rot .defaults p x = rot mixExample.params.rot p x) ∧
    (∀ p : BitVec 3, p.getLsbD 0 = false → ∀ x, unrot .defaults p x = unrot mixExample.params.rot p x) :=
  ⟨fun _ _ _ => rfl, fun _ _ _ => rfl⟩

theorem witness_DecryptInvertsEncrypt :
    Memory.wf (passExample [0x00, 0x11]).mem ∧ (passExample [0x00, 0x11]).len ≤ (passExample [0x00, 0x11]).params.bufSize :=
  ⟨passExample_wf _, by decide +kernel⟩

/-- Two states that differ in every byte of the payload. -/
theorem witness_PayloadStatesDoNotDependOnTheBuffer :
    let s := passExample [0x00, 0x11]
    let s' := passExample [0xFF, 0xEE]
    s.len ≤ s.params.bufSize ∧ s'.len ≤ s'.params.bufSize ∧ s.len = s'.len ∧ s.roundState = s'.roundState ∧
    (∀ i, i < 256 → s.byte (0x0100 + i) = s'.byte (0x0100 + i)) ∧ s.byte (0x1000 + 1) ≠ s'.byte (0x1000 + 1) :=
  ⟨by decide +kernel, by decide +kernel, by decide +kernel, rfl,
    fun i h => (passExample_table _ i h).trans (passExample_table _ i h).symm,
    by rw [passExample_byte (by decide), passExample_byte (by decide)]; decide⟩

theorem witness_SplitAtMultiplesOf256 :
    (List.replicate 256 (0x00 : Byte)).length = 256 ∧ (List.replicate 512 (0x00 : Byte)).length % 256 = 0 ∧
    (List.replicate 255 (0x00 : Byte)).length % 256 ≠ 0 ∧ Memory.wf (passExample [0x00, 0x11]).mem ∧
    (passExample [0x00, 0x11]).len ≤ (passExample [0x00, 0x11]).params.bufSize :=
  ⟨by rw [List.length_replicate], by rw [List.length_replicate], by rw [List.length_replicate]; decide, passExample_wf _,
    by decide +kernel⟩

theorem witness_TransactionWordsRoundTrip :
    HostOp.toWord (.write 0xFFFF 0xFF) = some 0x80FFFFFF ∧ transactionOf 0x80FFFFFF = .ok (.write 0xFFFF 0xFF) ∧
    transactionOf 0x00FFFF00 = .ok (.read 0xFFFF) := by decide

theorem witness_FrameParsesBack :
    (List.replicate 32 (0x00 : Byte)).length = 32 ∧ ([0x41] : List Byte) ≠ [] ∧ ([] : List Byte) = [] := by decide

/-- An encoding and a decoding block that hold the same keys and differ elsewhere. -/
theorem witness_DecodeSequenceRecoversThePayload :
    let s := setLen (put (kidx State.reset) 0x1000 [0x68, 0x69]) 2
    let d := { setLen (put (kidx State.reset) 0x0100 [0x11, 0x22]) 2 with tag := 0x55 }
    Memory.wf s.mem ∧ Memory.wf d.mem ∧ s.len ≤ s.params.bufSize ∧ d.params.bufSize = s.params.bufSize ∧
    d.params.hash = s.params.hash ∧ d.params.rot = s.params.rot ∧ d.len = s.len ∧
    d.bytes32 0x0040 = s.bytes32 0x0040 ∧ d.bytes32 0x0060 = s.bytes32 0x0060 :=
  ⟨put_wf (put_wf reset_wf _ _) _ _, put_wf (put_wf reset_wf _ _) _ _, by decide, rfl, rfl, rfl, by decide, by decide +kernel,
    by decide +kernel⟩

end Sys2Proof.Tests
end

section
/-! PROOFS of the family 00_scope: what every step keeps. The parameters (R7) first, then the invariant: each action of the block
(a completion, an effect, a reset, a write to the window) keeps it, and a step is one of these actions. -/

namespace Sys2Proof.Machine

/-! ### The parameters -/

theorem HostResult.params {s t : State} (h : HostResult s t) : t.params = s.params := by
  cases h with
  | waits | reads | polls | idles => rfl
  | writes a v rest => exact (windowWrite_keeps { s with bus := rest } a v).1

theorem CycleResult.params {s t : State} (h : CycleResult s t) : t.params = s.params := by
  cases h with
  | idle _ ht => exact ht.params
  | count _ _ _ ht => exact ht.params
  | run _ _ ht => exact ht.fields.1

/-- Settles O8: a reset restores the parameters, and an engine cycle leaves them alone. -/
theorem stepKeepsTheParameters : Obligations.StepKeepsTheParameters := by
  intro s t h
  cases step_cases h with
  | reset levels => rfl
  | cycle levels ht => exact ht.params

/-! ### The invariant: commands -/

/-- Completion without an error (R113) keeps the invariant: it sets `DONE` and leaves nothing in flight. -/
theorem State.complete_inv {s : State} (h : s.Inv) : s.complete.Inv := by
  obtain ⟨hparams, hwf, hstorage, herr, hcode, -⟩ := h
  exact ⟨hparams, hwf, hstorage, herr, hcode, by simp⟩

/-- Completion with an error (R113) keeps the invariant: `ERR` is 1 and the code is 1 or 2 (R190). -/
theorem State.completeWithError_inv {s : State} (h : s.Inv) (e : CmdError) : (s.completeWithError e).Inv := by
  obtain ⟨hparams, hwf, hstorage, -, -, -⟩ := h
  have hcode : e.code ≠ 0 ∧ e.code.toNat ≤ 2 := by cases e <;> decide
  exact ⟨hparams, hwf, hstorage, by simpa using hcode.1, hcode.2, by simp⟩

/-- The effect of a command that passed validation keeps the invariant: it stores inside the byte memories only. -/
theorem effectOf_inv {i : Instr} {s : State} (h : s.Inv) (hv : ¬ raisesLenRange i s) : (effectOf i s).Inv := by
  obtain ⟨hparams, hwf, hstorage, hflags⟩ := h
  obtain ⟨eparams, ecmd, estatus, -, -, -, eflight, -⟩ := effectOf_fields i s
  have hstorage' : ∀ c ∈ (effectOf i s).mem, isStorage s.params.bufSize c.1 = true := fun c hc => by
    rcases mem_effectOf hc with ⟨r, hr, hk⟩ | hc
    · exact writeRegions_storage hv hr hk
    · exact hstorage c hc
  rw [State.Inv, eparams, ecmd, estatus, eflight]
  exact ⟨hparams, effectOf_wf i hwf, hstorage', hflags⟩

theorem RunResult.inv {c : Byte} {s t : State} (ht : RunResult c s t) (h : s.Inv) : t.Inv := by
  cases ht with
  | error e => exact State.completeWithError_inv h e
  | effect i _ hv => exact State.complete_inv (effectOf_inv h hv)

/-! ### The invariant: reset and the host's accesses -/

/-- The reset action (R220, R221) establishes all of the invariant but the legality of the parameters, which it keeps. -/
theorem State.afterReset_inv {s : State} (h : s.params.wf = true) : s.afterReset.Inv :=
  ⟨h, Memory.wf_nil, by simp, by simp, by simp, by simp⟩

/-- The issue of a command (R110) puts its byte into `CMD` and clears the flags. -/
theorem State.issue_inv {s : State} (h : s.Inv) (c : Byte) : (s.issue c).Inv := by
  obtain ⟨hparams, hwf, hstorage, -⟩ := h
  exact ⟨hparams, hwf, hstorage, by simp, by simp, by simp⟩

/-- Clearing flags (R35) clears `ERR` and `ERRCODE` together, or neither. -/
theorem State.clearFlags_inv {s : State} (h : s.Inv) (v : Byte) : (s.clearFlags v).Inv := by
  obtain ⟨hparams, hwf, hstorage, herr, hcode, hflight⟩ := h
  refine ⟨hparams, hwf, hstorage, ?_, ?_, fun f hf => ?_⟩
  · rw [State.clearFlags_status]
    cases v.getLsbD 2 <;> simp [herr]
  · rw [State.clearFlags_status]
    cases v.getLsbD 2 <;> simp [hcode]
  · obtain ⟨hbyte, hdone, herr0⟩ := hflight f hf
    exact ⟨hbyte, by simp [hdone], by simp [herr0]⟩

/-- A store into a byte memory keeps the memory canonical and lists no other address. -/
theorem State.setByte_inv {s : State} (h : s.Inv) {k : Nat} (hk : isStorage s.params.bufSize k = true) (v : Byte) :
    (s.setByte k v).Inv := by
  obtain ⟨hparams, hwf, hstorage, hflags⟩ := h
  refine ⟨hparams, Memory.write_wf hwf k v, fun c hc => ?_, hflags⟩
  rcases Memory.mem_write hc with ⟨rfl, -⟩ | hc
  · exact hk
  · exact hstorage c hc

/-- A write to `CTRL` (R36) resets the block, or changes `IE` only. -/
theorem State.writeCtrl_inv {s : State} (h : s.Inv) (v : Byte) : (s.writeCtrl v).Inv := by
  unfold State.writeCtrl
  split
  · exact State.afterReset_inv h.1
  · exact h

/-- The window shows a byte memory only at an address of one (R72, R74). -/
theorem isStorage_of_placeOf {n : Nat} {a : Addr} (h : placeOf n a = .storage) : isStorage n a.toNat = true := by
  have hs : 0x000A ≤ a.toNat ∧ isStorage n a.toNat = true := by simpa [h] using placeOf_cases n a
  exact hs.2

/-- No write to the window breaks the invariant, whether or not a command is in flight. -/
theorem State.windowWrite_inv {s : State} (h : s.Inv) (a : Addr) (v : Byte) : (s.windowWrite a v).Inv := by
  unfold State.windowWrite
  cases hp : placeOf s.params.bufSize a with
  | id | ver | reserved => exact h
  | roundState | tag | lenLo | lenHi => exact h
  | cmd => exact State.issue_inv h v
  | status => exact State.clearFlags_inv h v
  | ctrl => exact State.writeCtrl_inv h v
  | storage => exact State.setByte_inv h (isStorage_of_placeOf hp) v

/-- The invariant does not speak of the host's own fields, so only a write can matter. -/
theorem HostResult.inv {s t : State} (ht : HostResult s t) (h : s.Inv) : t.Inv := by
  cases ht with
  | waits | reads | polls | idles => exact h
  | writes a v rest => exact State.windowWrite_inv (s := { s with bus := rest }) h a v

/-! ### The invariant: a step -/

/-- Counting down keeps the byte of the command in flight. -/
theorem State.inv_of_count {s : State} (h : s.Inv) {c : Byte} {m n : Nat} (hf : s.flight = some { byte := c, left := m }) :
    State.Inv { s with flight := some { byte := c, left := n } } := by
  obtain ⟨hparams, hwf, hstorage, herr, hcode, hflight⟩ := h
  have hc := hflight _ hf
  exact ⟨hparams, hwf, hstorage, herr, hcode, by simpa using hc⟩

theorem CycleResult.inv {s t : State} (ht : CycleResult s t) (h : s.Inv) : t.Inv := by
  cases ht with
  | idle _ ht => exact ht.inv h
  | count _ _ hf ht => exact ht.inv (State.inv_of_count h hf)
  | run _ _ ht => exact ht.inv h

/-- Settles O6: a step is a reset, a host turn, or the run of the command in flight, and each keeps the invariant. -/
theorem stepKeepsTheInvariant : Obligations.StepKeepsTheInvariant := by
  intro s t h hstep
  cases step_cases hstep with
  | reset levels => exact State.afterReset_inv (s := { s with resetIn := levels }) h.1
  | cycle levels ht => exact ht.inv h

end Sys2Proof.Machine
end

section
/-! PROOFS of the family 10_state: the registers as the host window shows them (R33 to R39), `irq` (R62), what a reset leaves
(R63), and what each command reads and writes (R61). -/

namespace Sys2Proof.Machine

/-! ### The registers in the window (R72) -/

theorem State.windowRead_id (s : State) : s.windowRead 0x0000 = 0x53 := rfl
theorem State.windowRead_ver (s : State) : s.windowRead 0x0001 = 0x01 := rfl
theorem State.windowRead_status (s : State) : s.windowRead 0x0003 = s.statusByte := rfl
theorem State.windowRead_ctrl (s : State) : s.windowRead 0x0004 = s.ctrlByte := rfl
theorem State.windowRead_lenLo (s : State) : s.windowRead 0x0008 = s.lenLo := rfl
theorem State.windowRead_lenHi (s : State) : s.windowRead 0x0009 = s.lenHi := rfl

theorem State.windowWrite_id (s : State) (v : Byte) : s.windowWrite 0x0000 v = s := rfl
theorem State.windowWrite_ver (s : State) (v : Byte) : s.windowWrite 0x0001 v = s := rfl
theorem State.windowWrite_cmd (s : State) (c : Byte) : s.windowWrite 0x0002 c = s.issue c := rfl
theorem State.windowWrite_status (s : State) (v : Byte) : s.windowWrite 0x0003 v = s.clearFlags v := rfl
theorem State.windowWrite_ctrl (s : State) (v : Byte) : s.windowWrite 0x0004 v = s.writeCtrl v := rfl
theorem State.windowWrite_lenLo (s : State) (v : Byte) : s.windowWrite 0x0008 v = { s with lenLo := v } := rfl
theorem State.windowWrite_lenHi (s : State) (v : Byte) : s.windowWrite 0x0009 v = { s with lenHi := v } := rfl

theorem State.writeCtrl_of_srst (s : State) {v : Byte} (h : v.getLsbD 1 = true) : s.writeCtrl v = s.afterReset :=
  if_pos h

theorem State.writeCtrl_of_not_srst (s : State) {v : Byte} (h : v.getLsbD 1 = false) :
    s.writeCtrl v = { s with ie := v.getLsbD 0 } :=
  if_neg (ne_true_of_eq_false h)

/-- `CTRL` reads back `IE` only (R36). -/
theorem State.ctrlByte_eq (s : State) : s.ctrlByte = if s.ie then 0x01 else 0x00 := by
  unfold State.ctrlByte
  cases s.ie <;> rfl

/-- The fields of `STATUS` as R35 places them: the byte is laid out from five fields, checked over all their values. -/
theorem State.statusByte_fields (s : State) :
    s.statusByte.getLsbD 0 = s.busy ∧ s.statusByte.getLsbD 1 = s.status.done ∧ s.statusByte.getLsbD 2 = s.status.err ∧
    s.statusByte.extractLsb' 3 3 = s.status.errcode ∧ s.statusByte.extractLsb' 6 2 = 0 := by
  have layout : ∀ (code : BitVec 3) (err done busy : Bool),
      let b : Byte := 0#2 ++ code ++ BitVec.ofBool err ++ BitVec.ofBool done ++ BitVec.ofBool busy
      b.getLsbD 0 = busy ∧ b.getLsbD 1 = done ∧ b.getLsbD 2 = err ∧ b.extractLsb' 3 3 = code ∧ b.extractLsb' 6 2 = 0 := by
    decide
  exact layout s.status.errcode s.status.err s.status.done s.busy

/-- `LEN` as a number (R39). -/
theorem State.len_eq (s : State) : s.len = s.lenHi.toNat * 256 + s.lenLo.toNat := by
  rw [State.len, BitVec.toNat_append, ← Nat.shiftLeft_add_eq_or_of_lt s.lenLo.isLt, Nat.shiftLeft_eq]

/-- A write of 1 to a bit that clears a flag makes the flag 0, any other write leaves it (R35). -/
theorem State.clearFlags_eq (s : State) (v : Byte) :
    s.clearFlags v =
      { s with status :=
        { done := if v.getLsbD 1 then false else s.status.done
          err := if v.getLsbD 2 then false else s.status.err
          errcode := if v.getLsbD 2 then 0 else s.status.errcode } } := by
  have clears : ∀ flag bit : Bool, (flag && !bit) = if bit then false else flag := by decide
  rw [State.clearFlags, clears, clears]

/-! ### The interrupt line (R62) -/

theorem State.irq_iff (s : State) : s.irq = true ↔ s.status.done = true ∧ s.ie = true := by simp [State.irq]

theorem State.irq_of_done {s : State} (h : s.status.done = true) : s.irq = s.ie := by simp [State.irq, h]

theorem State.irq_of_not_done {s : State} (h : s.status.done = false) : s.irq = false := by simp [State.irq, h]

/-! ### After a reset (R63) -/

theorem placeOf_eq_id_iff (n : Nat) (a : Addr) : placeOf n a = .id ↔ a = 0x0000 :=
  ⟨fun h => by simpa [h] using placeOf_cases n a, fun h => h ▸ rfl⟩

theorem placeOf_eq_ver_iff (n : Nat) (a : Addr) : placeOf n a = .ver ↔ a = 0x0001 :=
  ⟨fun h => by simpa [h] using placeOf_cases n a, fun h => h ▸ rfl⟩

theorem State.statusByte_afterReset (s : State) : s.afterReset.statusByte = 0x00 := by
  show State.reset.statusByte = 0x00
  decide

/-- After a reset every place but the two constants reads 0x00. -/
theorem State.readPlace_afterReset (s : State) (a : Addr) {p : Place} (hid : p ≠ .id) (hver : p ≠ .ver) :
    s.afterReset.readPlace p a = 0x00 := by
  cases p with
  | id => exact absurd rfl hid
  | ver => exact absurd rfl hver
  | status => exact s.statusByte_afterReset
  | ctrl => exact s.afterReset.ctrlByte_eq
  | cmd | roundState | tag | lenLo | lenHi | storage | reserved => rfl

theorem State.windowRead_afterReset (s : State) (a : Addr) : s.afterReset.windowRead a = resetValueAt a := by
  unfold resetValueAt
  split
  · next h => rw [h, State.windowRead_id]
  · next hid =>
    split
    · next h => rw [h, State.windowRead_ver]
    · next hver =>
      exact s.readPlace_afterReset a (mt (placeOf_eq_id_iff _ a).mp hid) (mt (placeOf_eq_ver_iff _ a).mp hver)

theorem State.irq_afterReset (s : State) : s.afterReset.irq = false := State.irq_of_not_done rfl

/-- The model's reset state is what the reset action leaves of itself. -/
theorem State.afterReset_reset : State.reset.afterReset = State.reset := rfl

/-- R63 for the reset action of any state. -/
theorem State.afterReset_reset_values (s : State) :
    (∀ a, s.afterReset.windowRead a = resetValueAt a) ∧ s.afterReset.flight = none ∧ s.afterReset.irq = false :=
  ⟨s.windowRead_afterReset, rfl, s.irq_afterReset⟩

/-- A step with the reset input asserted is the reset action (R220). -/
theorem step_of_reset {s : State} {levels : List Bool} (h : s.resetIn = true :: levels) :
    step s = .next { s with resetIn := levels }.afterReset := by
  unfold step cycle
  rw [h]

/-- Settles O9: all three ways lead to the state after the reset action. -/
theorem resetGivesEveryResetValue : Obligations.ResetGivesEveryResetValue := by
  refine ⟨?_, fun s levels h => ?_, fun s v h => ?_⟩
  · exact State.afterReset_reset ▸ State.reset.afterReset_reset_values
  · exact ⟨_, step_of_reset h, State.afterReset_reset_values _⟩
  · rw [State.windowWrite_ctrl, s.writeCtrl_of_srst h]
    exact s.afterReset_reset_values

/-! ### What a command writes (R61) -/

/-- A command changes no field but the memory, `STATE`, `TAG`, `STATUS` and the engine, and of the first three nothing outside
its write set, whether or not it passes validation. -/
theorem exec_frame (i : Instr) (s : State) : ∃ m rs tg st,
    exec i s = .next { s with mem := m, roundState := rs, tag := tg, status := st, flight := none } ∧
    (writesRoundState i = false → rs = s.roundState) ∧ (writesTag i = false → tg = s.tag) ∧
    ∀ k, (∀ r ∈ writeRegions i s.len, r.holds k = false) → Memory.read m k = s.byte k := by
  by_cases hv : raisesLenRange i s
  · exact ⟨s.mem, s.roundState, s.tag, _, exec_of_lenRange hv, fun _ => rfl, fun _ => rfl, fun _ _ => rfl⟩
  · obtain ⟨hrs, htg⟩ := effectOf_registers i s
    obtain ⟨ers, etg⟩ := effectOf_roundState_tag i s
    refine ⟨_, _, _, _, exec_completedWith hv, ers ▸ hrs, etg ▸ htg, fun k hk => ?_⟩
    rw [← effectOf_mem]
    exact effectOf_byte_outside hk

/-! ### What a command reads (R61) -/

/-- Two states with the same parameters that agree on the read set of a command. -/
structure ReadSetAgrees (i : Instr) (s s' : State) : Prop where
  params : s.params = s'.params
  len : readsLen i = true → s.len = s'.len
  roundState : readsRoundState i = true → s.roundState = s'.roundState
  byte : ∀ r ∈ readRegions i s.len, ∀ k, r.holds k = true → s.byte k = s'.byte k

theorem State.bytes_congr {s s' : State} {r : Region} (h : ∀ k, r.holds k = true → s.byte k = s'.byte k) :
    s.bytes r = s'.bytes r :=
  Memory.readBlock_congr fun i hi => h _ ((r.holds_iff _).mpr (by omega))

theorem ReadSetAgrees.bytes_eq {i : Instr} {s s' : State} (h : ReadSetAgrees i s s') :
    ∀ r ∈ readRegions i s.len, s.bytes r = s'.bytes r :=
  fun r hr => State.bytes_congr (h.byte r hr)

/-- A command that reads `LEN` reads the payload. -/
theorem payloadRegion_mem_readRegions {i : Instr} (h : readsLen i = true) (s : State) :
    s.payloadRegion ∈ readRegions i s.len := by
  cases i with
  | hash16a | hash16b | steptag | encrypt | decrypt => exact List.mem_cons_self
  | nop | mkpkey | derive | expand | mixtable => exact Bool.noConfusion h

theorem ReadSetAgrees.payloadRegion_eq {i : Instr} {s s' : State} (h : ReadSetAgrees i s s') (hl : readsLen i = true) :
    s.payloadRegion = s'.payloadRegion := by
  rw [State.payloadRegion, State.payloadRegion, h.len hl]

theorem ReadSetAgrees.payload_eq {i : Instr} {s s' : State} (h : ReadSetAgrees i s s') (hl : readsLen i = true) :
    s.payload = s'.payload := by
  rw [State.payload, State.payload, ← h.payloadRegion_eq hl]
  exact h.bytes_eq _ (payloadRegion_mem_readRegions hl s)

/-- The lists a command stores depend on its read set only. -/
theorem ReadSetAgrees.storesOf_eq {i : Instr} {s s' : State} (h : ReadSetAgrees i s s') :
    storesOf i s = storesOf i s' := by
  have hb := h.bytes_eq
  cases i with
  | nop | steptag => rfl
  | hash16a | hash16b => simp only [storesOf, h.params, h.payload_eq rfl]
  | mkpkey | derive | expand =>
    simp only [readRegions, List.forall_mem_cons] at hb
    simp only [storesOf, h.params, hb]
  | mixtable =>
    simp only [readRegions, List.forall_mem_cons] at hb
    simp only [storesOf, h.params, h.roundState rfl, hb]
  | encrypt | decrypt =>
    simp only [readRegions, List.forall_mem_cons] at hb
    simp only [storesOf, h.params, h.roundState rfl, h.payload_eq rfl, h.payloadRegion_eq rfl, hb]

/-- The round state a command leaves depends on its read set only. -/
theorem ReadSetAgrees.roundStateAfter_eq {i : Instr} {s s' : State} (h : ReadSetAgrees i s s')
    (hw : writesRoundState i = true) : roundStateAfter i s = roundStateAfter i s' := by
  have hb := h.bytes_eq
  cases i with
  | mixtable =>
    simp only [readRegions, List.forall_mem_cons] at hb
    simp only [roundStateAfter, h.params, h.roundState rfl, hb]
  | encrypt | decrypt =>
    simp only [readRegions, List.forall_mem_cons] at hb
    simp only [roundStateAfter, h.params, h.roundState rfl, h.payload_eq rfl, hb]
  | nop | hash16a | hash16b | mkpkey | derive | expand | steptag => exact Bool.noConfusion hw

/-- The tag a command leaves depends on its read set only. -/
theorem ReadSetAgrees.tagAfter_eq {i : Instr} {s s' : State} (h : ReadSetAgrees i s s') (hw : writesTag i = true) :
    tagAfter i s = tagAfter i s' := by
  cases i with
  | steptag =>
    have hb := h.bytes_eq
    simp only [readRegions, List.forall_mem_cons] at hb
    simp only [tagAfter, h.payload_eq rfl, hb]
  | nop | hash16a | hash16b | mkpkey | derive | expand | mixtable | encrypt | decrypt => exact Bool.noConfusion hw

/-- The same stores give the same bytes in the regions they fill, whatever the memories held before: the last store that
covers an address decides. -/
theorem read_storeAll_congr {m m' : List Host.Cell} (hm : Memory.wf m) (hm' : Memory.wf m')
    {stores : List (Region × List Byte)} (hl : ∀ x ∈ stores, x.2.length = x.1.size) {k : Nat}
    (hk : ∃ x ∈ stores, x.1.holds k = true) :
    Memory.read (storeAll m stores) k = Memory.read (storeAll m' stores) k := by
  induction stores generalizing m m' with
  | nil => simp at hk
  | cons x rest ih =>
    obtain ⟨hx, hrest⟩ := List.forall_mem_cons.mp hl
    by_cases later : ∃ y ∈ rest, y.1.holds k = true
    · exact ih (Memory.writeBlock_wf hm _ _) (Memory.writeBlock_wf hm' _ _) hrest later
    · have hout : ∀ y ∈ rest, y.1.holds k = false := by simpa using later
      have hin : x.1.holds k = true := by simpa [later] using hk
      obtain ⟨hlo, hhi⟩ := (x.1.holds_iff k).mp hin
      rw [storeAll, storeAll, read_storeAll_outside _ hrest hout, read_storeAll_outside _ hrest hout,
        ← Nat.add_sub_cancel' hlo, Memory.read_writeBlock_inside hm _ (by omega),
        Memory.read_writeBlock_inside hm' _ (by omega)]

/-- Every write region is filled by one of the stores. -/
theorem exists_store_of_writeRegion {i : Instr} {s : State} {r : Region} (hr : r ∈ writeRegions i s.len) :
    ∃ x ∈ storesOf i s, x.1 = r :=
  List.mem_map.mp ((storesOf_fits i s).2 ▸ hr)

/-- Two states that agree on the read set of a command hold the same bytes in its write regions after its effect. -/
theorem ReadSetAgrees.effectOf_byte {i : Instr} {s s' : State} (h : ReadSetAgrees i s s') (hm : Memory.wf s.mem)
    (hm' : Memory.wf s'.mem) {r : Region} (hr : r ∈ writeRegions i s.len) {k : Nat} (hk : r.holds k = true) :
    (effectOf i s).byte k = (effectOf i s').byte k := by
  obtain ⟨x, hx, rfl⟩ := exists_store_of_writeRegion hr
  rw [State.byte, State.byte, effectOf_mem, effectOf_mem, ← h.storesOf_eq]
  exact read_storeAll_congr hm hm' (storesOf_fits i s).1 ⟨x, hx, hk⟩

/-- Settles O21: the frame of every command, and its results as functions of its read set. -/
theorem commandsReadAndWriteTheirSets : Obligations.CommandsReadAndWriteTheirSets := by
  refine ⟨exec_frame, fun i s s' t t' hm hm' hparams hlen hrs hbyte ht ht' => ?_⟩
  have h : ReadSetAgrees i s s' := ⟨hparams, fun hi => (hlen hi).1, hrs, hbyte⟩
  have hv : ¬ raisesLenRange i s := fun ⟨hi, hgt⟩ => absurd (hlen hi).2 (by omega)
  have hv' : ¬ raisesLenRange i s' := fun ⟨hi, hgt⟩ => hv ⟨hi, by rwa [hparams, h.len hi]⟩
  obtain rfl : (effectOf i s).complete = t := by simpa [exec_of_valid hv] using ht
  obtain rfl : (effectOf i s').complete = t' := by simpa [exec_of_valid hv'] using ht'
  obtain ⟨ers, etg⟩ := effectOf_roundState_tag i s
  obtain ⟨ers', etg'⟩ := effectOf_roundState_tag i s'
  refine ⟨fun hw => ?_, fun hw => ?_, fun r hr k hk => h.effectOf_byte hm hm' hr hk⟩
  · rw [State.complete_roundState, State.complete_roundState, ers, ers', h.roundStateAfter_eq hw]
  · rw [State.complete_tag, State.complete_tag, etg, etg', h.tagAfter_eq hw]

/-! ### Single registers -/

/-- Settles O5: the reset state is what the reset action leaves, and the default parameters are legal. -/
theorem resetMeetsTheInvariant : Obligations.ResetMeetsTheInvariant :=
  State.afterReset_inv (s := State.reset) (by decide)

/-- Settles O22: `ID` and `VER` have no storage behind them. -/
theorem idAndVerAreConstant : Obligations.IdAndVerAreConstant := fun s v =>
  ⟨s.windowRead_id, s.windowRead_ver, s.windowWrite_id v, s.windowWrite_ver v, rfl, rfl⟩

/-- Settles O23. The clause about `ERRCODE` is the invariant's equivalence of `ERR` and a nonzero code. -/
theorem statusFieldsAndWriteOneToClear : Obligations.StatusFieldsAndWriteOneToClear := by
  intro s v
  refine ⟨s.statusByte_fields, s.clearFlags_eq v, s.issue_busy v, s.issue_status v,
    ⟨s.complete_busy, s.complete_status⟩, fun e => ⟨s.completeWithError_busy e, ?_⟩, fun hinv herr => ?_,
    State.reset.statusByte_afterReset⟩
  · cases e <;> rfl
  · obtain ⟨-, -, -, herrcode, -⟩ := hinv
    obtain ⟨-, -, -, hfield, -⟩ := s.statusByte_fields
    rw [State.windowRead_status, hfield]
    by_contra hne
    exact absurd (herrcode.mpr hne) (by simp [herr])

/-- Settles O24: the two cases of a write are those of `SRST`. -/
theorem ctrlReadsBackOnlyInterruptEnable : Obligations.CtrlReadsBackOnlyInterruptEnable := by
  intro s v
  rw [State.windowRead_ctrl, State.windowRead_ctrl, State.windowWrite_ctrl]
  exact ⟨s.ctrlByte_eq, s.writeCtrl_of_not_srst, s.writeCtrl_of_srst, rfl, State.reset.ctrlByte_eq⟩

/-- Settles O25: a completion leaves `DONE` = 1, and the three clearing events leave `DONE` = 0. -/
theorem irqIsDoneAndEnable : Obligations.IrqIsDoneAndEnable := by
  intro s v c e
  have hstatus : v.getLsbD 1 = true → (s.windowWrite 0x0003 v).status.done = false := fun hv => by
    rw [State.windowWrite_status, s.clearFlags_eq v, if_pos hv]
  have hcmd : (s.windowWrite 0x0002 c).status.done = false := by rw [State.windowWrite_cmd, State.issue_status]
  exact ⟨s.irq_iff, State.irq_of_done rfl, rfl, State.irq_of_done rfl, rfl, fun hv => State.irq_of_not_done (hstatus hv),
    State.irq_of_not_done hcmd, s.irq_afterReset⟩

/-- Settles O26: the two writes set one half of `LEN` each. -/
theorem lenIsLittleEndian : Obligations.LenIsLittleEndian := by
  intro s lo hi t
  have ht : t = { s with lenLo := lo, lenHi := hi } := by
    show (s.windowWrite 0x0008 lo).windowWrite 0x0009 hi = _
    rw [State.windowWrite_lenLo, State.windowWrite_lenHi]
  rw [ht]
  exact ⟨State.len_eq _, State.windowRead_lenLo _, State.windowRead_lenHi _, rfl⟩

end Sys2Proof.Machine
end

section
/-! PROOFS of the family 20_memory: the address map (R72), what reads and writes of the window do (R73, R74, R84), and what the host
can do while a command is in flight (R78, R79, R82). -/

namespace Sys2Proof.Machine

/-! ### A placed command (R82, R110) -/

/-- The decoder inverts the encoder on every command (R92). -/
theorem decode_encode (i : Instr) : decode (encode i) = .ok i := by cases i <;> decide

/-- A command byte, read as an opcode-table word of 8 bits, is itself (R95). -/
theorem tableByte_toNat (c : Byte) : tableByte 8 c.toNat = c := by
  rw [tableByte, Nat.mod_eq_of_lt c.isLt, BitVec.ofNat_toNat, BitVec.setWidth_eq]

theorem runCommand_of_ok {c : Byte} {i : Instr} (h : decode c = .ok i) (s : State) : runCommand c s = exec i s := by
  rw [runCommand, h]

theorem runCommand_of_error {c : Byte} {e : DecodeError} (h : decode c = .error e) (s : State) :
    runCommand c s = .next (s.completeWithError .illegalCmd) := by
  rw [runCommand, h]

theorem runCommand_encode (i : Instr) (s : State) : runCommand (encode i) s = exec i s :=
  runCommand_of_ok (decode_encode i) s

/-- Settles O14: the byte placed is in flight in its last cycle, and the decoder reads the command back from it. -/
theorem placedCommandRunsNext : Obligations.PlacedCommandRunsNext := by
  intro s i hreset
  have hlower : lowerReset s.resetIn = s.resetIn := by rw [hreset]; rfl
  have hplaced : s.withFetchWord 8 (encode i).toNat =
      { s with cmd := encode i, status := { done := false, err := false, errcode := 0 },
               flight := some { byte := encode i, left := 0 } } := by
    rw [State.withFetchWord, tableByte_toNat, State.startCommand, hlower]
    rfl
  calc step (s.withFetchWord 8 (encode i).toNat)
      = runCommand (encode i) (s.withFetchWord 8 (encode i).toNat) :=
        step_run (by rw [hplaced]; exact hreset) (by rw [hplaced])
    _ = exec i (s.withFetchWord 8 (encode i).toNat) := runCommand_encode i _
    _ = _ := by rw [hplaced]

/-! ### The places of the window (R72) -/

/-- The address of the register at a place; the byte memories and the reserved addresses have no single one. -/
def Place.registerAddr (p : Place) : Option Addr :=
  match p with
  | .id => some 0x0000
  | .ver => some 0x0001
  | .cmd => some 0x0002
  | .status => some 0x0003
  | .ctrl => some 0x0004
  | .roundState => some 0x0005
  | .tag => some 0x0006
  | .lenLo => some 0x0008
  | .lenHi => some 0x0009
  | .storage | .reserved => none

/-- Each register stands at its address of R72 and nowhere else. -/
theorem placeOf_eq_register_iff {p : Place} {r : Addr} (h : p.registerAddr = some r) (n : Nat) (a : Addr) :
    placeOf n a = p ↔ a = r := by
  cases p with
  | storage | reserved => cases h
  | id | ver | cmd | status | ctrl | roundState | tag | lenLo | lenHi =>
    obtain rfl := Option.some.inj h
    exact ⟨fun hp => by simpa [hp] using placeOf_cases n a, fun ha => ha ▸ rfl⟩

/-! ### Accesses by place and by address (R72, R73) -/

theorem State.windowRead_of_placeOf {s : State} {a : Addr} {p : Place} (h : placeOf s.params.bufSize a = p) :
    s.windowRead a = s.readPlace p a := by
  rw [State.windowRead, h]

theorem State.windowWrite_of_placeOf {s : State} {a : Addr} {p : Place} (h : placeOf s.params.bufSize a = p) (v : Byte) :
    s.windowWrite a v = s.writePlace p a v := by
  rw [State.windowWrite, h]

@[simp] theorem State.windowWrite_params (s : State) (a : Addr) (v : Byte) : (s.windowWrite a v).params = s.params :=
  (windowWrite_keeps s a v).1

theorem State.windowRead_cmd (s : State) : s.windowRead 0x0002 = s.cmd := rfl
theorem State.windowRead_roundState (s : State) : s.windowRead 0x0005 = s.roundState := rfl
theorem State.windowRead_tag (s : State) : s.windowRead 0x0006 = s.tag := rfl

theorem isStorage_of_region {n k : Nat} {r : Region} (hr : r ∈ storageRegions n) (hk : r.holds k = true) :
    isStorage n k = true :=
  List.any_eq_true.mpr ⟨r, hr, hk⟩

/-- With a legal `BUF_SIZE` every byte memory lies inside the 16-bit window (R7, D14). -/
theorem storageRegions_inside {p : Params} (h : p.wf = true) {r : Region} (hr : r ∈ storageRegions p.bufSize) :
    r.base + r.size ≤ 2 ^ 16 := by
  have hbuf : p.bufSize ≤ 61440 := by
    rw [Params.wf, Bool.and_eq_true, decide_eq_true_eq, decide_eq_true_eq] at h
    exact h.2
  simp only [storageRegions, List.mem_cons, List.not_mem_nil, or_false] at hr
  rcases hr with rfl | rfl | rfl | rfl | rfl | rfl | rfl
  pick_goal 7
  · show 0x1000 + p.bufSize ≤ 2 ^ 16
    omega
  all_goals decide

/-- Element `k` of a byte memory reads at its base + `k`. -/
theorem State.windowRead_region {s : State} (h : s.params.wf = true) {r : Region}
    (hr : r ∈ storageRegions s.params.bufSize) {k : Nat} (hk : k < r.size) :
    s.windowRead (BitVec.ofNat 16 (r.base + k)) = byteAt (s.bytes r) k := by
  have hinside := storageRegions_inside h hr
  have haddr : (BitVec.ofNat 16 (r.base + k)).toNat = r.base + k := by
    rw [BitVec.toNat_ofNat, Nat.mod_eq_of_lt (by omega)]
  have hplace : placeOf s.params.bufSize (BitVec.ofNat 16 (r.base + k)) = .storage := by
    refine placeOf_storage (isStorage_of_region hr ?_)
    rw [haddr, Region.holds_iff]
    omega
  calc s.windowRead (BitVec.ofNat 16 (r.base + k))
      = s.byte (BitVec.ofNat 16 (r.base + k)).toNat := State.windowRead_of_placeOf hplace
    _ = Memory.read s.mem (r.base + k) := by rw [haddr, State.byte]
    _ = byteAt (s.bytes r) k := (Memory.byteAt_readBlock s.mem r.base hk).symm

/-- Settles O27: the registers by their addresses, the byte memories by one lemma about all of them. -/
theorem windowAddressMap : Obligations.WindowAddressMap := by
  intro s h
  have element : ∀ r ∈ storageRegions s.params.bufSize, ∀ k, k < r.size →
      s.windowRead (BitVec.ofNat 16 (r.base + k)) = byteAt (s.bytes r) k :=
    fun r hr k hk => State.windowRead_region h hr hk
  simp only [storageRegions, List.forall_mem_cons] at element
  obtain ⟨ha, hb, hpkey, hpub, hsk32, htbl, hbuf, -⟩ := element
  exact ⟨s.windowRead_cmd, s.windowRead_status, s.windowRead_ctrl, s.windowRead_roundState, s.windowRead_tag,
    s.windowRead_lenLo, s.windowRead_lenHi, ha, hb, hpkey, hpub, hsk32, htbl, hbuf⟩

/-! ### Which accesses are exempt (R78) -/

theorem exempt_read_iff (n : Nat) (a : Addr) : HostOp.exempt n (.read a) = true ↔
    a = 0x0000 ∨ a = 0x0001 ∨ a = 0x0003 ∨ a = 0x0004 ∨ placeOf n a = .reserved := by
  rw [← placeOf_eq_register_iff (p := .id) rfl n, ← placeOf_eq_register_iff (p := .ver) rfl n,
    ← placeOf_eq_register_iff (p := .status) rfl n, ← placeOf_eq_register_iff (p := .ctrl) rfl n]
  cases hp : placeOf n a <;> simp [HostOp.exempt, hp]

theorem exempt_write_iff (n : Nat) (a : Addr) (v : Byte) : HostOp.exempt n (.write a v) = true ↔
    a = 0x0003 ∨ a = 0x0004 ∨ placeOf n a = .reserved := by
  rw [← placeOf_eq_register_iff (p := .status) rfl n, ← placeOf_eq_register_iff (p := .ctrl) rfl n]
  cases hp : placeOf n a <;> simp [HostOp.exempt, hp]

/-! ### Reserved addresses (R74) -/

/-- Settles O29: the reserved addresses are those where nothing stands. -/
theorem reservedAddressesReadZeroAndIgnoreWrites : Obligations.ReservedAddressesReadZeroAndIgnoreWrites := by
  intro s a v h
  have hplace := (placeOf_reserved_iff s.params.bufSize a).mpr h
  exact ⟨State.windowRead_of_placeOf hplace, State.windowWrite_of_placeOf hplace v,
    (exempt_read_iff _ a).mpr (by simp [hplace]), (exempt_write_iff _ a v).mpr (by simp [hplace])⟩

/-! ### A write to a read/write byte (R72, R73) -/

/-- The places where a write stores its byte and does nothing else: `STATE`, `TAG`, `LEN_LO`, `LEN_HI` and the byte memories. -/
def Place.plainByte (p : Place) : Bool :=
  match p with
  | .roundState | .tag | .lenLo | .lenHi | .storage => true
  | .id | .ver | .cmd | .status | .ctrl | .reserved => false

theorem placeOf_plainByte {n : Nat} {a : Addr}
    (h : a.toNat = 0x0005 ∨ a.toNat = 0x0006 ∨ a.toNat = 0x0008 ∨ a.toNat = 0x0009 ∨ isStorage n a.toNat = true) :
    (placeOf n a).plainByte = true := by
  have register : ∀ r : Addr, a.toNat = r.toNat → a = r := fun r => BitVec.eq_of_toNat_eq
  rcases h with h | h | h | h | h
  · rw [register 0x0005 h]; rfl
  · rw [register 0x0006 h]; rfl
  · rw [register 0x0008 h]; rfl
  · rw [register 0x0009 h]; rfl
  · rw [placeOf_storage h]; rfl

theorem State.readPlace_writePlace_same {s : State} (h : Memory.wf s.mem) {p : Place} (hp : p.plainByte = true) (a : Addr)
    (v : Byte) : (s.writePlace p a v).readPlace p a = v := by
  cases p with
  | id | ver | cmd | status | ctrl | reserved => exact absurd hp (by decide)
  | roundState | tag | lenLo | lenHi => rfl
  | storage => exact Memory.read_write_same h a.toNat v

/-- A store at one place changes no read at another one, and a store into a byte memory no other byte. -/
theorem State.readPlace_writePlace_other (s : State) {p q : Place} (hp : p.plainByte = true) {a b : Addr}
    (h : p = q → p = .storage ∧ b ≠ a) (v : Byte) : (s.writePlace p a v).readPlace q b = s.readPlace q b := by
  by_cases hpq : p = q
  · obtain ⟨rfl, hne⟩ := h hpq
    subst hpq
    exact Memory.read_write_ne s.mem v (mt BitVec.eq_of_toNat_eq hne)
  · cases p with
    | id | ver | cmd | status | ctrl | reserved => exact absurd hp (by decide)
    | roundState | tag | lenLo | lenHi | storage => cases q <;> first | rfl | exact absurd rfl hpq

/-- Of the places that store a byte, only the byte memories have more than one address. -/
theorem Place.eq_storage_of_plainByte {p : Place} (hp : p.plainByte = true) (hr : p.registerAddr = none) : p = .storage := by
  cases p with
  | storage => rfl
  | roundState | tag | lenLo | lenHi => cases hr
  | id | ver | cmd | status | ctrl | reserved => cases hp

/-- Two addresses with the same place that stores a byte are equal, or are bytes of the memories. -/
theorem placeOf_eq_plainByte {n : Nat} {a b : Addr} (hp : (placeOf n a).plainByte = true)
    (h : placeOf n a = placeOf n b) : placeOf n a = .storage ∨ b = a := by
  cases hr : (placeOf n a).registerAddr with
  | none => exact .inl (Place.eq_storage_of_plainByte hp hr)
  | some r =>
    have ha : a = r := (placeOf_eq_register_iff hr n a).mp rfl
    have hb : b = r := (placeOf_eq_register_iff hr n b).mp h.symm
    exact .inr (hb.trans ha.symm)

/-- Settles O28: the addresses named are those of the places that store a byte. -/
theorem windowReadsBackWhatWasWritten : Obligations.WindowReadsBackWhatWasWritten := by
  intro s a b v hwf ha
  have hp : (placeOf s.params.bufSize a).plainByte = true := placeOf_plainByte (by rwa [isStorage_iff])
  rw [State.windowRead, State.windowRead, State.windowWrite_params]
  refine ⟨State.readPlace_writePlace_same hwf hp a v, fun hb => s.readPlace_writePlace_other hp (fun hplace => ?_) v⟩
  exact ⟨(placeOf_eq_plainByte hp hplace).resolve_right hb, hb⟩

/-! ### Side effects (R84) -/

/-- A read changes the host's own fields only. -/
theorem State.performHostOp_read (s : State) (a : Addr) (rest : List HostOp) :
    s.performHostOp (.read a) rest = { s with bus := rest, replies := s.windowRead a :: s.replies } := rfl

/-- Only writes to `CMD`, `STATUS` and `CTRL` reach the flags, `IE`, `CMD` or the engine. -/
theorem State.writePlace_keeps_engine (s : State) {p : Place} (hcmd : p ≠ .cmd) (hstatus : p ≠ .status) (hctrl : p ≠ .ctrl)
    (a : Addr) (v : Byte) :
    (s.writePlace p a v).status = s.status ∧ (s.writePlace p a v).flight = s.flight ∧
    (s.writePlace p a v).ie = s.ie ∧ (s.writePlace p a v).cmd = s.cmd := by
  cases p with
  | cmd | status | ctrl => contradiction
  | id | ver | roundState | tag | lenLo | lenHi | storage | reserved => exact ⟨rfl, rfl, rfl, rfl⟩

/-- Storing a byte twice is storing it once. -/
theorem Memory.write_write_same {m : List Host.Cell} (h : Memory.wf m) (k : Nat) (v : Byte) :
    Memory.write (Memory.write m k v) k v = Memory.write m k v := by
  have hw := Memory.write_wf h k v
  refine Memory.ext_read (Memory.write_wf hw k v) hw fun j => ?_
  by_cases hj : j = k
  · rw [hj, Memory.read_write_same hw, Memory.read_write_same h]
  · rw [Memory.read_write_ne _ v hj]

theorem State.clearFlags_clearFlags (s : State) (v : Byte) : (s.clearFlags v).clearFlags v = s.clearFlags v := by
  rw [State.clearFlags_eq, State.clearFlags_eq s]
  cases v.getLsbD 1 <;> cases v.getLsbD 2 <;> rfl

theorem State.writeCtrl_writeCtrl (s : State) (v : Byte) : (s.writeCtrl v).writeCtrl v = s.writeCtrl v := by
  cases h : v.getLsbD 1 with
  | false => rw [s.writeCtrl_of_not_srst h, State.writeCtrl_of_not_srst _ h]
  | true => rw [s.writeCtrl_of_srst h, State.writeCtrl_of_srst _ h]; rfl

/-- At every place but `CMD`, the same write a second time changes nothing. -/
theorem State.writePlace_writePlace {s : State} (h : Memory.wf s.mem) {p : Place} (hcmd : p ≠ .cmd) (a : Addr) (v : Byte) :
    (s.writePlace p a v).writePlace p a v = s.writePlace p a v := by
  cases p with
  | cmd => contradiction
  | id | ver | roundState | tag | lenLo | lenHi | reserved => rfl
  | status => exact s.clearFlags_clearFlags v
  | ctrl => exact s.writeCtrl_writeCtrl v
  | storage => exact congrArg (fun m => { s with mem := m }) (Memory.write_write_same h a.toNat v)

/-- Settles O30: the places of `CMD`, `STATUS` and `CTRL` are their addresses, so each clause is one about places. -/
theorem onlyThreeWritesHaveSideEffects : Obligations.OnlyThreeWritesHaveSideEffects := by
  refine ⟨State.performHostOp_read, fun s a v hcmd hstatus hctrl => ?_, fun s a v hwf hcmd => ?_, fun s a b rest => rfl,
    fun s c => ⟨s.extraCycles c, rfl⟩⟩
  · exact s.writePlace_keeps_engine (mt (placeOf_eq_register_iff rfl _ a).mp hcmd)
      (mt (placeOf_eq_register_iff rfl _ a).mp hstatus) (mt (placeOf_eq_register_iff rfl _ a).mp hctrl) a v
  · rw [State.windowWrite, State.windowWrite_params]
    exact State.writePlace_writePlace hwf (mt (placeOf_eq_register_iff rfl _ a).mp hcmd) a v

/-! ### Accesses while a command is in flight (R78) -/

/-- An exempt operation performs in the host's turn, whether or not a command is in flight. -/
theorem hostTurn_exempt {s : State} {op : HostOp} {rest : List HostOp} (hq : s.bus = op :: rest)
    (he : op.exempt s.params.bufSize = true) : s.hostTurn = s.performHostOp op rest := by
  simp [State.hostTurn, hq, he]

/-- With cycles left, an exempt operation performs in the next step. -/
theorem step_exempt {s : State} {c : Byte} {n : Nat} {op : HostOp} {rest : List HostOp}
    (hf : s.flight = some { byte := c, left := n + 1 }) (hr : s.resetIn = []) (hq : s.bus = op :: rest)
    (he : op.exempt s.params.bufSize = true) :
    step s = .next ({ s with flight := some { byte := c, left := n } }.performHostOp op rest) :=
  (step_count hr hf).trans (congrArg _ (hostTurn_exempt hq he))

/-- While the next operation stalls, the command runs to its end as if the host did nothing. -/
theorem run_stalled (c : Byte) {op : HostOp} {rest : List HostOp} (n : Nat) (s : State)
    (hf : s.flight = some { byte := c, left := n }) (hr : s.resetIn = []) (hq : s.bus = op :: rest)
    (he : op.exempt s.params.bufSize = false) : core.run (n + 1) s = runCommand c s := by
  induction n generalizing s with
  | zero => rw [core_run_one, step_run hr hf]
  | succ n ih =>
    let t : State := { s with flight := some { byte := c, left := n } }
    have hstep : step s = .next t := (step_count hr hf).trans (congrArg _ (hostTurn_stall (s := t) rfl hq he))
    rw [core_run_succ _ _ _ hstep, ih t rfl hr hq he, runCommand_flight]

/-- A stalled operation performs in the step after the command has completed, against the state the command left. -/
theorem stalled_performs_after_completion {s : State} {c : Byte} {n : Nat} {op : HostOp} {rest : List HostOp}
    (hf : s.flight = some { byte := c, left := n }) (hr : s.resetIn = []) (hq : s.bus = op :: rest)
    (he : op.exempt s.params.bufSize = false) :
    ∃ u, runCommand c s = .next u ∧ core.run (n + 1) s = .next u ∧ step u = .next (u.performHostOp op rest) := by
  obtain ⟨u, hu, hres⟩ := runCommand_result c s
  obtain ⟨-, -, -, -, -, uflight, ubus, ureset, -⟩ := hres.fields
  exact ⟨u, hu, (run_stalled c n s hf hr hq he).trans hu, step_idle (ureset.trans hr) uflight (ubus.trans hq)⟩

/-- A soft reset while a command has cycles left aborts it, and the host goes on against the reset state (R221). -/
theorem softReset_aborts {s : State} {c v : Byte} {n : Nat} {op : HostOp} {rest : List HostOp}
    (hf : s.flight = some { byte := c, left := n + 1 }) (hr : s.resetIn = [])
    (hq : s.bus = .write 0x0004 v :: op :: rest) (hv : v.getLsbD 1 = true) :
    ∃ u, step s = .next u ∧ u = { State.reset with params := s.params, bus := op :: rest, replies := s.replies } ∧
      step u = .next (u.performHostOp op rest) := by
  have hexempt : HostOp.exempt s.params.bufSize (.write 0x0004 v) = true := (exempt_write_iff _ _ v).mpr (by simp)
  let t : State := { s with flight := some { byte := c, left := n }, bus := op :: rest }
  have hstep : step s = .next t.afterReset := by
    rw [step_exempt hf hr hq hexempt, State.performHostOp, State.windowWrite_ctrl, State.writeCtrl_of_srst _ hv]
  have ht : t.afterReset = { State.reset with params := s.params, bus := op :: rest, replies := s.replies } := by
    rw [State.afterReset, hr]
    rfl
  exact ⟨_, hstep, ht, step_idle hr rfl rfl⟩

/-- Settles O18: what an exempt access, a stalled one and a soft reset do, one lemma each. -/
theorem hostAccessesWhileBusy : Obligations.HostAccessesWhileBusy := by
  refine ⟨fun n a v => ?_, fun s c n op rest => step_exempt, fun s c n op rest => stalled_performs_after_completion,
    fun s c v n op rest => softReset_aborts⟩
  rw [exempt_read_iff, exempt_write_iff, placeOf_reserved_iff]
  simp only [← BitVec.toNat_inj]
  exact ⟨Iff.rfl, Iff.rfl⟩

/-! ### Atomicity (R79) -/

/-- The fields that a host without a soft reset can change while a command is in flight: `IE` and its own ones. -/
def State.withHostFields (s : State) (ie : Bool) (bus : List HostOp) (replies : List Byte) : State :=
  { s with ie := ie, bus := bus, replies := replies }

theorem effectOf_withHostFields (i : Instr) (s : State) (ie : Bool) (b : List HostOp) (r : List Byte) :
    effectOf i (s.withHostFields ie b r) = (effectOf i s).withHostFields ie b r := by
  obtain ⟨-, ecmd, estatus, -, -, -, eflight, -, eresetIn, -⟩ := effectOf_fields i s
  calc effectOf i (s.withHostFields ie b r)
      = { effectOf i s with cmd := s.cmd, status := s.status, ie := ie, flight := s.flight, bus := b, resetIn := s.resetIn,
                            replies := r } := effectOf_congr i s s.cmd s.status ie s.flight b s.resetIn r
    _ = (effectOf i s).withHostFields ie b r := by rw [← ecmd, ← estatus, ← eflight, ← eresetIn]; rfl

theorem exec_withHostFields {i : Instr} {s u : State} (h : exec i s = .next u) (ie : Bool) (b : List HostOp)
    (r : List Byte) : exec i (s.withHostFields ie b r) = .next (u.withHostFields ie b r) := by
  by_cases hl : raisesLenRange i s
  · obtain rfl : s.completeWithError .lenRange = u := by simpa [exec_of_lenRange hl] using h
    exact exec_of_lenRange (s := s.withHostFields ie b r) hl
  · obtain rfl : (effectOf i s).complete = u := by simpa [exec_of_valid hl] using h
    rw [exec_of_valid (s := s.withHostFields ie b r) hl, effectOf_withHostFields]
    rfl

/-- A command neither reads nor writes the fields the host can change meanwhile. -/
theorem runCommand_withHostFields {c : Byte} {s u : State} (h : runCommand c s = .next u) (ie : Bool) (b : List HostOp)
    (r : List Byte) : runCommand c (s.withHostFields ie b r) = .next (u.withHostFields ie b r) := by
  cases hd : decode c with
  | ok i =>
    rw [runCommand_of_ok hd] at h ⊢
    exact exec_withHostFields h ie b r
  | error e =>
    obtain rfl : s.completeWithError .illegalCmd = u := by simpa [runCommand_of_error hd] using h
    exact runCommand_of_error hd _

/-- In a state that meets the invariant, all flags are 0 while a command is in flight (R110). -/
theorem State.status_of_flight {s : State} (h : s.Inv) {f : Flight} (hf : s.flight = some f) :
    s.status = { done := false, err := false, errcode := 0 } := by
  obtain ⟨-, -, -, herrcode, -, hflight⟩ := h
  obtain ⟨-, hdone, herr⟩ := hflight f hf
  have hcode : s.status.errcode = 0 := by
    by_contra hne
    exact absurd (herrcode.mpr hne) (by simp [herr])
  have fields : ∀ st : Status, st.done = false → st.err = false → st.errcode = 0 →
      st = { done := false, err := false, errcode := 0 } := by rintro ⟨_, _, _⟩ rfl rfl rfl; rfl
  exact fields s.status hdone herr hcode

/-- Clearing flags that are all 0 changes nothing. -/
theorem State.clearFlags_of_no_flags {s : State} (h : s.status = { done := false, err := false, errcode := 0 }) (v : Byte) :
    s.clearFlags v = s := by
  have hclear : (s.clearFlags v).status = s.status := by simp [h]
  calc s.clearFlags v = { s with status := (s.clearFlags v).status } := rfl
    _ = s := by rw [hclear]

/-- While a command is in flight, a write that performs and is no soft reset can only change `IE` (R78). -/
theorem State.windowWrite_while_busy {s : State} (hinv : s.Inv) {f : Flight} (hf : s.flight = some f) {a : Addr} {v : Byte}
    (he : HostOp.exempt s.params.bufSize (.write a v) = true) (hv : (HostOp.write a v).isSoftReset = false) :
    ∃ ie, s.windowWrite a v = { s with ie := ie } := by
  rcases (exempt_write_iff _ a v).mp he with rfl | rfl | hplace
  · exact ⟨s.ie, State.clearFlags_of_no_flags (State.status_of_flight hinv hf) v⟩
  · have hsrst : v.getLsbD 1 = false := by simpa [HostOp.isSoftReset, ctrlAddr] using hv
    exact ⟨v.getLsbD 0, s.writeCtrl_of_not_srst hsrst⟩
  · exact ⟨s.ie, State.windowWrite_of_placeOf hplace v⟩

/-- A host turn without a soft reset while a command is in flight changes only the host's fields and takes at most one operation
off its queue. -/
theorem HostResult.while_busy {s t : State} (h : HostResult s t) (hinv : s.Inv) {f : Flight} (hf : s.flight = some f)
    (hop : ∀ op ∈ s.bus.head?, op.isSoftReset = false) :
    ∃ ie b r, t = s.withHostFields ie b r ∧ (b = s.bus ∨ b = s.bus.tail) := by
  have hbusy : s.busy = true := by rw [State.busy, hf]; rfl
  cases h with
  | waits => exact ⟨s.ie, s.bus, s.replies, rfl, .inl rfl⟩
  | reads a rest hb => exact ⟨s.ie, rest, s.windowRead a :: s.replies, rfl, .inr (by rw [hb]; rfl)⟩
  | polls rest hb => exact ⟨s.ie, _, s.windowRead statusAddr :: s.replies, rfl, .inl (by rw [if_pos hbusy, hb])⟩
  | idles rest hb => exact ⟨s.ie, rest, s.replies, rfl, .inr (by rw [hb]; rfl)⟩
  | writes a v rest hb he =>
    obtain ⟨ie, hw⟩ := State.windowWrite_while_busy (s := { s with bus := rest }) hinv hf (he hbusy) (hop _ (by simp [hb]))
    exact ⟨ie, rest, s.replies, hw, .inr (by rw [hb]; rfl)⟩

/-- Without a soft reset the command in flight ends as if it had been performed at once, but for the host's fields. -/
theorem run_of_flight {c : Byte} (n : Nat) {s u : State} (hinv : s.Inv) (hf : s.flight = some { byte := c, left := n })
    (hr : s.resetIn = []) (hop : ∀ op ∈ s.bus.take n, op.isSoftReset = false) (hu : runCommand c s = .next u) :
    ∃ ie b r, core.run (n + 1) s = .next (u.withHostFields ie b r) := by
  induction n generalizing s u with
  | zero => exact ⟨u.ie, u.bus, u.replies, by rw [core_run_one, step_run hr hf, hu]; rfl⟩
  | succ n ih =>
    let m : State := { s with flight := some { byte := c, left := n } }
    have hm : m.Inv := State.inv_of_count hinv hf
    have hmu : runCommand c m = .next u := (runCommand_flight c s _).trans hu
    have hhead : ∀ op ∈ m.bus.head?, op.isSoftReset = false := fun op h =>
      hop op (List.mem_of_mem_head? (by rw [List.head?_take, if_neg (Nat.succ_ne_zero n)]; exact h))
    obtain ⟨ie, b, r, ht, hb⟩ := (hostTurn_result m).while_busy hm rfl hhead
    have hrest : ∀ op ∈ b.take n, op.isSoftReset = false := fun op h => hop op <| by
      rcases hb with rfl | rfl
      · exact (List.take_sublist_take_left (Nat.le_succ n)).subset h
      · exact List.mem_of_mem_tail (by rwa [List.tail_take_eq_take_tail])
    have htinv : (m.withHostFields ie b r).Inv := ht ▸ (hostTurn_result m).inv hm
    obtain ⟨ie', b', r', hrun⟩ := ih htinv rfl hr hrest (runCommand_withHostFields hmu ie b r)
    exact ⟨ie', b', r', (core_run_succ _ _ _ ((step_count hr hf).trans (congrArg _ ht))).trans hrun⟩

/-- Settles O19: the two final states differ in the host's fields only, which the statement leaves out. -/
theorem commandIsAtomicWhateverTheHostDoes : Obligations.CommandIsAtomicWhateverTheHostDoes := by
  intro s c n hinv hf hr hop
  obtain ⟨u, hu, hres⟩ := runCommand_result c s
  obtain ⟨-, -, -, -, -, uflight, -⟩ := hres.fields
  obtain ⟨ie, b, r, hrun⟩ := run_of_flight n hinv hf hr hop hu
  exact ⟨_, u, hrun, hu, rfl, rfl, rfl, rfl, rfl, rfl, rfl, uflight, uflight⟩

end Sys2Proof.Machine
end

section
/-! PROOFS of the family 30_encoding: the opcode map (R90, R92), the illegal bytes (R94, R191), and the transaction words (R97). -/

namespace Sys2Proof.Machine

/-! ### The opcode map (R90, R92) -/

/-- One bit, taken out as a field of width 1. -/
theorem ofBool_getLsbD {w : Nat} (x : BitVec w) (k : Nat) : BitVec.ofBool (x.getLsbD k) = x.extractLsb' k 1 :=
  BitVec.eq_of_getLsbD_eq fun i hi => by simp [Nat.lt_one_iff.mp hi]

/-- A byte whose reserved bits are 000 is laid out from its fields `M` and `OP` (R90). -/
theorem eq_commandByte_of_rsvField {c : Byte} (h : rsvField c = 0) : c = commandByte (modeBit c) (opField c) := by
  have hparts : rsvField c ++ BitVec.ofBool (modeBit c) ++ opField c = c := by
    rw [rsvField, modeBit, opField, ofBool_getLsbD,
      BitVec.extractLsb'_append_extractLsb'_eq_extractLsb' (by decide : 5 = 4 + 1),
      BitVec.extractLsb'_append_extractLsb'_eq_extractLsb' (by decide : 4 = 0 + 4), BitVec.extractLsb'_eq_self]
  rw [h] at hparts
  exact hparts.symm

/-- The encoder inverts the decoder: a decoded byte has `RSV` = 000, and the `OP` and `M` of its row. -/
theorem eq_encode_of_decode {c : Byte} {i : Instr} (h : decode c = .ok i) : c = encode i := by
  unfold decode at h
  split at h
  · cases h
  · next hrsv =>
    have hc := eq_commandByte_of_rsvField (not_not.mp hrsv)
    rw [← BitVec.setWidth_eq (opField c), ← BitVec.ofNat_toNat] at hc
    split at h <;> cases h
    -- the rows of the table remain, each with its `OP` and `M`
    all_goals
      next hop hm =>
      rw [hm, hop] at hc
      exact hc

/-- The decoder selects a row of the table of R92 for exactly its byte. -/
theorem decode_eq_ok_iff (c : Byte) (i : Instr) : decode c = .ok i ↔ c = encode i :=
  ⟨eq_encode_of_decode, fun h => h ▸ decode_encode i⟩

theorem decodeTableWord_encode (i : Instr) : decodeTableWord 8 (encode i).toNat = some i := by
  rw [decodeTableWord, tableByte_toNat, decode_encode]

/-- Settles O1: every command is well formed, and the decoder inverts the encoder. -/
theorem decodeInvertsEncode : Obligations.DecodeInvertsEncode := fun i _ => decode_encode i

/-- Settles O2: the bytes written out are the encodings of the ten commands. -/
theorem eachCommandIsExactlyItsByte : Obligations.EachCommandIsExactlyItsByte := by
  intro c
  have row := decode_eq_ok_iff c
  exact ⟨row .nop, row .hash16a, row .hash16b, row .mkpkey, row .derive, row .expand, row .steptag, row .mixtable,
    row .encrypt, row .decrypt⟩

/-- Settles O3: five of the words are encodings, and 0x12 has a reserved mode bit. -/
theorem tableWordsDecode : Obligations.TableWordsDecode :=
  ⟨decodeTableWord_encode .nop, decodeTableWord_encode .hash16b, decodeTableWord_encode .expand,
    decodeTableWord_encode .steptag, decodeTableWord_encode .decrypt, by decide⟩

/-! ### Illegal bytes (R94, R191) -/

/-- An illegal byte completes at once (R94): at its issue it is in its last cycle. -/
theorem State.issue_flight_of_not_command {c : Byte} (h : isCommand c = false) (s : State) :
    (s.issue c).flight = some { byte := c, left := 0 } := by
  simp [State.extraCycles, h]

/-- From an idle block the write of an illegal byte to `CMD` issues it, and the next cycle completes it with `ILLEGAL_CMD`. -/
theorem run_illegal_write {s : State} {c : Byte} {rest : List HostOp} (hc : isCommand c = false) (hf : s.flight = none)
    (hr : s.resetIn = []) (hq : s.bus = .write 0x0002 c :: rest) :
    core.run 2 s = .next ((State.issue { s with bus := rest } c).completeWithError .illegalCmd) := by
  have hissue : step s = .next (State.issue { s with bus := rest } c) := step_idle hr hf hq
  have hcomplete : step (State.issue { s with bus := rest } c) = runCommand c (State.issue { s with bus := rest } c) :=
    step_run hr (State.issue_flight_of_not_command hc _)
  rw [core_run_succ 1 _ _ hissue, core_run_one, hcomplete]
  exact runCommand_of_not_command hc _

/-- Settles O4: the counts are evaluated over all 256 bytes; the run leaves the engine idle, as it was. -/
theorem illegalBytesChangeOnlyCmdAndStatus : Obligations.IllegalBytesChangeOnlyCmdAndStatus := by
  refine ⟨by decide +kernel, by decide +kernel, by decide +kernel, by decide +kernel, fun s c rest hc hf hr hq => ?_⟩
  rw [run_illegal_write hc hf hr hq]
  show Host.Outcome.next
    { s with cmd := c, bus := rest, status := { done := true, err := true, errcode := 1 }, flight := none } = _
  rw [← hf]
  rfl

/-! ### Transaction words (R97) -/

/-- The number a word of a first byte, an address and a data byte stands for. -/
theorem toNat_word (top : Byte) (a : Addr) (v : Byte) :
    (top ++ a ++ v).toNat = top.toNat * 2 ^ 24 + a.toNat * 2 ^ 8 + v.toNat := by
  rw [BitVec.toNat_append, ← Nat.shiftLeft_add_eq_or_of_lt v.isLt, BitVec.toNat_append,
    ← Nat.shiftLeft_add_eq_or_of_lt a.isLt, Nat.shiftLeft_eq, Nat.shiftLeft_eq]
  omega

theorem word_eq_ofNat (top : Byte) (a : Addr) (v : Byte) :
    top ++ a ++ v = BitVec.ofNat 32 (top.toNat * 2 ^ 24 + a.toNat * 2 ^ 8 + v.toNat) := by
  rw [← toNat_word, BitVec.ofNat_toNat]
  exact (BitVec.setWidth_eq _).symm

/-- The fields that the decoder of transaction words takes from such a word. -/
theorem word_fields (top : Byte) (a : Addr) (v : Byte) :
    (top ++ a ++ v).extractLsb' 24 7 = top.extractLsb' 0 7 ∧ (top ++ a ++ v).getLsbD 31 = top.getLsbD 7 ∧
    (top ++ a ++ v).extractLsb' 8 16 = a ∧ (top ++ a ++ v).extractLsb' 0 8 = v := by
  have above : ∀ start len, 8 ≤ start → (top ++ a ++ v).extractLsb' start len = (top ++ a).extractLsb' (start - 8) len :=
    fun _ _ h => BitVec.extractLsb'_append_eq_of_le h
  refine ⟨?_, ?_, ?_, BitVec.extractLsb'_append_eq_right⟩
  · rw [above 24 7 (by decide)]
    exact BitVec.extractLsb'_append_eq_of_le (by decide)
  · rw [BitVec.getLsbD_append, BitVec.getLsbD_append]
    rfl
  · rw [above 8 16 (by decide)]
    exact BitVec.extractLsb'_append_eq_right

/-- A word whose bits 30:24 are 0 is laid out from its bit 31, its address and its data byte. -/
theorem word_eq_append {w : BitVec 32} (h : w.extractLsb' 24 7 = 0) :
    w = (BitVec.ofBool (w.getLsbD 31) ++ 0#7 : Byte) ++ w.extractLsb' 8 16 ++ w.extractLsb' 0 8 := by
  have hparts : w.extractLsb' 31 1 ++ w.extractLsb' 24 7 ++ w.extractLsb' 8 16 ++ w.extractLsb' 0 8 = w := by
    rw [BitVec.extractLsb'_append_extractLsb'_eq_extractLsb' (by decide : 31 = 24 + 7),
      BitVec.extractLsb'_append_extractLsb'_eq_extractLsb' (by decide : 24 = 8 + 16),
      BitVec.extractLsb'_append_extractLsb'_eq_extractLsb' (by decide : 8 = 0 + 8), BitVec.extractLsb'_eq_self]
  rw [h, ← ofBool_getLsbD] at hparts
  exact hparts.symm

/-- A word whose decoder answers is that of the operation it answers. -/
theorem toWord_of_transactionOf {w : BitVec 32} {op : HostOp} (h : transactionOf w = .ok op) : op.toWord = some w := by
  unfold transactionOf at h
  split at h
  · cases h
  · next hrsv =>
    have hw := word_eq_append (not_not.mp hrsv)
    split at h
    · next hwrite =>
      cases h
      rw [hwrite] at hw
      exact congrArg some hw.symm
    · next hread =>
      split at h
      · cases h
      · next hdata =>
        cases h
        rw [Bool.eq_false_of_not_eq_true hread, not_not.mp hdata] at hw
        exact congrArg some hw.symm

/-- The decoder of transaction words gives back the operation whose word it is (R97). -/
theorem transactionOf_of_toWord {op : HostOp} {w : BitVec 32} (h : op.toWord = some w) : transactionOf w = .ok op := by
  cases op with
  | wait | idle => cases h
  | read a =>
    obtain rfl := Option.some.inj h
    obtain ⟨hrsv, hbit, haddr, hdata⟩ := word_fields 0#8 a 0#8
    rw [transactionOf, hrsv, hbit, haddr, hdata]
    rfl
  | write a v =>
    obtain rfl := Option.some.inj h
    obtain ⟨hrsv, hbit, haddr, hdata⟩ := word_fields 0x80#8 a v
    rw [transactionOf, hrsv, hbit, haddr, hdata]
    rfl

/-- Settles O53: the layout is the number of a word, and the decoder and the encoder of words invert each other. -/
theorem transactionWordsRoundTrip : Obligations.TransactionWordsRoundTrip := by
  refine ⟨fun a => ?_, fun a v => ?_, fun op w => transactionOf_of_toWord, fun op w => toWord_of_transactionOf,
    fun a v => rfl, rfl, rfl⟩
  · exact congrArg some (by simpa using word_eq_ofNat 0#8 a 0#8)
  · exact congrArg some (word_eq_ofNat 0x80#8 a v)

end Sys2Proof.Machine
end

section
/-! PROOFS of the family 40_common: the life cycle of a command from its issue to its completion (R110 to R115), and the shared
primitives `byteMix`, `mixI` and `popcount8` (R117 to R119). -/

namespace Sys2Proof.Machine

/-! ### Issue and stall (R110) -/

theorem State.busy_eq_false_iff (s : State) : s.busy = false ↔ s.flight = none := by simp [State.busy]

/-- A write to `CMD` is no exempt access (R78). -/
theorem exempt_write_cmd (n : Nat) (c : Byte) : HostOp.exempt n (.write 0x0002 c) = false := rfl

/-- Running a command byte ends its flight and leaves `CMD`, the host's queue and the reset input alone. -/
theorem runCommand_frame (c : Byte) (s : State) :
    ∃ u, runCommand c s = .next u ∧ u.flight = none ∧ u.cmd = s.cmd ∧ u.bus = s.bus ∧ u.resetIn = s.resetIn := by
  obtain ⟨u, hu, hres⟩ := runCommand_result c s
  obtain ⟨-, hcmd, -, -, -, hflight, hbus, hreset, -⟩ := hres.fields
  exact ⟨u, hu, hflight, hcmd, hbus, hreset⟩

/-- Settles O12: the step of an idle block is the issue of `c`; a busy block runs its command to the end past the stalled write. -/
theorem cmdWriteIssuesOrStalls : Obligations.CmdWriteIssuesOrStalls := by
  intro s c rest hr hq
  refine ⟨fun hidle => ?_, fun d n hf => ?_⟩
  · have hissue : step s = .next (State.issue { s with bus := rest } c) :=
      step_idle hr (s.busy_eq_false_iff.mp hidle) hq
    exact ⟨_, hissue, rfl, State.issue_busy _ c, ⟨_, rfl⟩, State.issue_status _ c, rfl⟩
  · obtain ⟨u, hu, hflight, hcmd, hbus, hreset⟩ := runCommand_frame d s
    have hrun : core.run (n + 1) s = .next u := (run_stalled d n s hf hr hq (exempt_write_cmd _ c)).trans hu
    exact ⟨u, hrun, u.busy_eq_false_iff.mpr hflight, hcmd, hbus, hreset.trans hr⟩

/-! ### Validation, performance and completion (R111 to R114) -/

/-- While the reset input is not asserted, a step takes its level off the list and is an engine cycle. -/
theorem step_of_reset_low {s : State} (h : s.resetIn.head? ≠ some true) :
    step s = engineCycle { s with resetIn := s.resetIn.tail } := by
  cases hr : s.resetIn with
  | nil => rw [step_of_no_reset hr, List.tail_nil, ← hr]
  | cons level levels =>
    cases level with
    | true => exact absurd (congrArg List.head? hr) h
    | false => rw [step, cycle, hr, List.tail_cons]

/-- Settles O13: the engine cycle runs the byte in flight, and the decoder reads `i` from it. -/
theorem stepRunsTheDecodedCommand : Obligations.StepRunsTheDecodedCommand := by
  intro s c i hf hd hr
  calc step s
      = engineCycle { s with resetIn := s.resetIn.tail } := step_of_reset_low hr
    _ = runCommand c { s with resetIn := s.resetIn.tail } := by rw [engineCycle, hf]
    _ = exec i { s with resetIn := s.resetIn.tail } := runCommand_of_ok hd _

/-- Settles O15: a command completes with `LEN_RANGE` or with its effect, and an illegal byte with `ILLEGAL_CMD`. -/
theorem completionSetsTheFlags : Obligations.CompletionSetsTheFlags := by
  refine ⟨fun i s => ?_, fun c s hc => ?_⟩
  · by_cases hv : raisesLenRange i s
    · exact ⟨_, exec_of_lenRange hv, rfl, rfl, State.irq_of_done rfl, by rw [if_pos hv]; exact ⟨rfl, rfl⟩⟩
    · exact ⟨_, exec_completedWith hv, rfl, rfl, State.irq_of_done rfl, by rw [if_neg hv]; exact ⟨rfl, rfl⟩⟩
  · exact ⟨_, runCommand_of_not_command hc s, rfl, rfl, State.irq_of_done rfl, rfl, rfl⟩

/-- Settles O16: both errors complete through the block's one exception entry, which writes `STATUS` and the engine only. -/
theorem errorsWriteNothingButStatus : Obligations.ErrorsWriteNothingButStatus :=
  ⟨fun _ _ hl hlen => exec_of_lenRange ⟨hl, hlen⟩, fun _ s hc => runCommand_of_not_command hc s⟩

/-! ### `NOP` (R115) -/

/-- `NOP` does not read `LEN` and has no effect, so it only completes. -/
theorem exec_nop (s : State) : exec .nop s = .next (s.completedWith s.mem s.roundState s.tag) :=
  exec_completedWith (not_raisesLenRange rfl s)

/-- Settles O37: the run from reset places `NOP`, which then completes against the state of its issue. -/
theorem nopOnlyCompletes : Obligations.NopOnlyCompletes := by
  have hrun := (placedCommandRunsNext State.reset .nop rfl).trans (exec_nop _)
  exact ⟨decode_encode .nop, exec_nop, _, hrun, rfl, rfl⟩

/-! ### `byteMix` and `mixI` (R117, R118) -/

theorem mixI_eq (i : Nat) (a b : Byte) : mixI i a b = if i % 2 = 0 then ~~~(a ^^^ b) else a ^^^ b := by
  simp [mixI, isEven, not8]

theorem mixI_comm (i : Nat) (a b : Byte) : mixI i a b = mixI i b a := by
  rw [mixI, BitVec.xor_comm a b, mixI]

theorem byteMix_eq_mixI (t : List Byte) (idx : Nat) (v : Byte) : byteMix t idx v = mixI idx (byteAt t idx) v := by
  rw [mixI_comm, byteMix, mixI]

/-- Mixing in the same byte twice gives the byte back: the two complements cancel, and so do the two exclusive ors. -/
theorem mixI_mixI (i : Nat) (a b : Byte) : mixI i a (mixI i a b) = b := by
  have hxor : a ^^^ (a ^^^ b) = b := by rw [← BitVec.xor_assoc, BitVec.xor_self, BitVec.zero_xor]
  rw [mixI_eq, mixI_eq]
  split
  · rw [BitVec.not_xor_right, BitVec.not_not, hxor]
  · exact hxor

theorem byteMix_involutive (t : List Byte) (idx : Nat) : Function.Involutive (byteMix t idx) := fun v => by
  rw [byteMix_eq_mixI, byteMix_eq_mixI, mixI_mixI]

/-- Settles O31: `mixI` is symmetric, and the rest is its formula. -/
theorem byteMixIsMixI : Obligations.ByteMixIsMixI := fun t idx i v a b => ⟨byteMix_eq_mixI t idx v, mixI_eq i a b⟩

/-- Settles O32: an involution is a bijection. -/
theorem byteMixLaws : Obligations.ByteMixLaws :=
  ⟨byteMix_involutive, fun t idx => (byteMix_involutive t idx).bijective, mixI_comm⟩

/-! ### `popcount8` (R119) -/

theorem popcount8_eq_sum (b : Byte) : popcount8 b = ∑ k ∈ Finset.range 8, if b.getLsbD k then 1 else 0 := by
  have hcount : popcount8 b = Nat.count (fun k => b.getLsbD k = true) 8 := by simp [popcount8, Nat.count]
  rw [hcount, Nat.count_eq_card_filter_range, Finset.card_filter]

/-- Each of the 8 bits is set in the byte or in its complement. -/
theorem popcount8_add_popcount8_not8 (b : Byte) : popcount8 b + popcount8 (not8 b) = 8 := by
  have hnot : popcount8 (not8 b) = (List.range 8).countP (fun k => decide ¬b.getLsbD k = true) :=
    List.countP_congr fun k hk => by simp [not8, List.mem_range.mp hk]
  rw [hnot, popcount8, ← List.length_eq_countP_add_countP, List.length_range]

/-- Settles O33: the bound and the count of the complement follow from the two counts adding up to 8. -/
theorem popcountOfComplement : Obligations.PopcountOfComplement := by
  intro b
  have hsum := popcount8_add_popcount8_not8 b
  exact ⟨popcount8_eq_sum b, by omega, by omega⟩

end Sys2Proof.Machine
end

section
/-! PROOFS of the family 41_key_derivation: `HASH16` as a single pass over its slots (R130, R131), and the commands `HASH16A`,
`HASH16B`, `MKPKEY` and `DERIVE` (R134 to R137), each of which fills one region and leaves every other byte alone. -/

namespace Sys2Proof.Machine

/-! ### `HASH16` is a single pass (R130) -/

/-- The update of the 16 slots at one position, under each instantiation of `HASH16`, on the slots as a list of bytes. -/
def hashUpdate (h : HashParam) (p : Nat) (v : Byte) (slots : List Byte) : List Byte :=
  match h with
  | .h16ref => h16Position p v 0 slots
  | .opened n => (Config.openHashUpdate n p v (Vector.ofFn fun i => byteAt slots i)).toList

/-- Sixteen slots, read back from the list of their bytes. -/
theorem ofFn_byteAt_toList (slots : Vector Byte 16) : (Vector.ofFn fun i => byteAt slots.toList i) = slots :=
  Vector.ext fun i hi => by simp [byteAt]

/-- The hash of an input and one more byte updates the hash of the input. -/
theorem hash16_append_singleton (h : HashParam) (xs : List Byte) (v : Byte) :
    hash16 h (xs ++ [v]) = hashUpdate h xs.length v (hash16 h xs) := by
  cases h with
  | h16ref => simp only [hash16, h16ref, hashUpdate, hashPass_append, Nat.zero_add, hashPass]
  | opened n =>
    simp only [hash16, hashUpdate, hashPass_append, Nat.zero_add, hashPass, ofFn_byteAt_toList]

/-- Settles O57: the pass over `xs ++ [v]` is the pass over `xs` and one update more. -/
theorem hashIsASinglePass : Obligations.HashIsASinglePass :=
  ⟨hash16_length, fun h => ⟨hashUpdate h, hash16_append_singleton h⟩, hash16_nil_opened, by decide⟩

/-! ### `H16REF` slot by slot (R131) -/

theorem h16Slot_of_even {p k : Nat} (h : (p + k) % 2 = 0) (v t : Byte) :
    h16Slot p k v t = (t ^^^ (v - BitVec.ofNat 8 (p + k))) - h16Seed k := by
  simp [h16Slot, isEven, h]

theorem h16Slot_of_odd {p k : Nat} (h : (p + k) % 2 ≠ 0) (v t : Byte) :
    h16Slot p k v t =
      t * ((v - BitVec.ofNat 8 (p + k)) ||| 1) - (v - BitVec.ofNat 8 (p + k)) := by
  simp [h16Slot, isEven, h]

/-- Multiplication by an odd byte loses nothing, since an odd number is coprime to 256. -/
theorem mul_or_one_injective (d : Byte) : Function.Injective (· * (d ||| 1) : Byte → Byte) := by
  intro t u h
  have hodd : Nat.Coprime (2 ^ 8) (d ||| 1).toNat := by
    refine Nat.Coprime.pow_left 8 (Nat.coprime_two_left.mpr ?_)
    rw [Nat.odd_iff, BitVec.toNat_or]
    simp [Nat.or_mod_two_eq_one]
  have hmod : t.toNat * (d ||| 1).toNat ≡ u.toNat * (d ||| 1).toNat [MOD 2 ^ 8] := by
    simpa only [BitVec.toNat_mul, Nat.ModEq] using congrArg BitVec.toNat h
  have hcancel := Nat.ModEq.cancel_right_of_coprime hodd hmod
  exact BitVec.eq_of_toNat_eq (hcancel.eq_of_lt_of_lt t.isLt u.isLt)

/-- One slot update keeps different slot values different. -/
theorem h16Slot_injective (p k : Nat) (v : Byte) : Function.Injective (h16Slot p k v) := by
  intro t u h
  by_cases hp : (p + k) % 2 = 0
  · rw [h16Slot_of_even hp, h16Slot_of_even hp] at h
    exact (BitVec.xor_left_inj _).mp (sub_left_injective h)
  · rw [h16Slot_of_odd hp, h16Slot_of_odd hp] at h
    exact mul_or_one_injective _ (sub_left_injective h)

/-- At a position `p` with `p + k` even, different input bytes leave different values in slot `k`. -/
theorem h16Slot_ne_of_byte_ne {p k : Nat} (h : (p + k) % 2 = 0) {v w : Byte} (hvw : v ≠ w) (t : Byte) :
    h16Slot p k v t ≠ h16Slot p k w t := by
  rw [h16Slot_of_even h, h16Slot_of_even h]
  exact fun heq => hvw (sub_left_injective ((BitVec.xor_right_inj _).mp (sub_left_injective heq)))

/-- A pass whose every update keeps different slots different does so as a whole. -/
theorem hashPass_injective {σ : Type} {update : Nat → Byte → σ → σ} (h : ∀ p v, Function.Injective (update p v))
    (p : Nat) (input : List Byte) : Function.Injective (hashPass update p input) := by
  induction input generalizing p with
  | nil => exact Function.injective_id
  | cons v rest ih => exact (ih (p + 1)).comp (h p v)

/-- The pass of `H16REF` carries each slot along by itself. -/
theorem byteAt_hashPass (p : Nat) (input slots : List Byte) {k : Nat} (hk : k < slots.length) :
    byteAt (hashPass (fun p v slots => h16Position p v 0 slots) p input slots) k =
      hashPass (fun p v t => h16Slot p k v t) p input (byteAt slots k) := by
  induction input generalizing p slots with
  | nil => rfl
  | cons v rest ih =>
    rw [hashPass, hashPass, ih _ _ (by rwa [h16Position_length]), byteAt_h16Position p v 0 slots hk, Nat.zero_add]

/-- Slot `k` of `H16REF`: the pass of that slot alone, from its seed. -/
theorem byteAt_h16ref (input : List Byte) {k : Nat} (hk : k < 16) :
    byteAt (hash16 .h16ref input) k = hashPass (fun p v t => h16Slot p k v t) 0 input (h16Seed k) := by
  rw [hash16, h16ref, byteAt_hashPass 0 input _ (by simpa using hk), byteAt_map_range _ hk]

/-- Settles O36: the changed byte makes slot `k` differ at its own position, and the bytes after it keep it different. -/
theorem changedByteReachesEverySecondHashSlot : Obligations.ChangedByteReachesEverySecondHashSlot := by
  intro xs ys v w k hvw hk heven
  rw [byteAt_h16ref _ hk, byteAt_h16ref _ hk, hashPass_append, hashPass_append, hashPass, hashPass]
  refine (hashPass_injective (fun p v => h16Slot_injective p k v) _ ys).ne ?_
  exact h16Slot_ne_of_byte_ne (by rwa [Nat.zero_add]) hvw _

/-! ### Commands that fill one region -/

/-- A command whose effect is one store writes its bytes into that region and leaves every byte outside it alone. -/
theorem exec_of_single_store {i : Instr} {s : State} {r : Region} {bs : List Byte} (hv : ¬ raisesLenRange i s)
    (hs : storesOf i s = [(r, bs)]) (hm : Memory.wf s.mem) :
    ∃ m, exec i s = .next (s.completedWith m (roundStateAfter i s) (tagAfter i s)) ∧
      (∀ k, k < r.size → Memory.read m (r.base + k) = byteAt bs k) ∧ s.agreesOutside m r := by
  have hl : bs.length = r.size := (storesOf_fits i s).1 (r, bs) (by simp [hs])
  have hexec := exec_completedWith hv
  rw [hs] at hexec
  exact ⟨_, hexec, fun k hk => State.byte_setBytes_inside hm r (hl ▸ hk), fun k hk => s.byte_setBytes_outside r hl hk⟩

/-! ### `HASH16A` and `HASH16B` (R134, R135) -/

theorem State.payloadBytes_of_len_zero {s : State} (h : s.len = 0) : s.payloadBytes = [] := by
  simp [State.payloadBytes, h]

/-- The example of R134: the bytes of `abc`. -/
theorem h16ref_abc : hash16 .h16ref [0x61, 0x62, 0x63] =
    [0x27, 0x00, 0xC1, 0x84, 0x9B, 0xC8, 0x0D, 0x2C, 0xFF, 0x80, 0xF9, 0x54, 0x13, 0xF8, 0xF5, 0xCC] := by decide

/-- The example of R135: the bytes of `example.org`. -/
theorem h16ref_example_org : hash16 .h16ref [0x65, 0x78, 0x61, 0x6D, 0x70, 0x6C, 0x65, 0x2E, 0x6F, 0x72, 0x67] =
    [0x8D, 0x94, 0x5B, 0x06, 0x49, 0xB0, 0xBF, 0xB2, 0x25, 0xDC, 0x83, 0x9E, 0x71, 0x48, 0x67, 0x1A] := by decide

/-- A command that stores the hash of the payload into one region, for a `LEN` that passes validation. -/
theorem exec_hashPayload {i : Instr} {s : State} {r : Region} (hlen : s.len ≤ s.params.bufSize)
    (hs : storesOf i s = [(r, hash16 s.params.hash s.payload)]) (hm : Memory.wf s.mem) :
    ∃ m, exec i s = .next (s.completedWith m (roundStateAfter i s) (tagAfter i s)) ∧
      (∀ k, k < r.size → Memory.read m (r.base + k) = byteAt (hash16 s.params.hash s.payloadBytes) k) ∧
      s.agreesOutside m r := by
  rw [← s.payload_eq]
  exact exec_of_single_store (valid_of_len_le hlen i) hs hm

/-- Settles O38: the one store of `HASH16A` is the hash of the payload, into `HA`. -/
theorem hash16aHashesThePayloadIntoHA : Obligations.Hash16aHashesThePayloadIntoHA := by
  refine ⟨decode_encode .hash16a, fun s hm => ⟨fun hlen => ?_, fun hlen => exec_of_lenRange ⟨rfl, hlen⟩⟩⟩
  obtain ⟨m, hexec, hread, hframe⟩ := exec_hashPayload (i := .hash16a) hlen rfl hm
  exact ⟨m, hexec, hread, hframe, fun h0 => State.payloadBytes_of_len_zero h0 ▸ hread,
    fun hh hp => by rwa [hh, hp, h16ref_abc] at hread⟩

/-- Settles O39: the one store of `HASH16B` is the hash of the payload, into `HB`. -/
theorem hash16bHashesThePayloadIntoHB : Obligations.Hash16bHashesThePayloadIntoHB := by
  refine ⟨decode_encode .hash16b, fun s hm => ⟨fun hlen => ?_, fun hlen => exec_of_lenRange ⟨rfl, hlen⟩⟩⟩
  obtain ⟨m, hexec, hread, hframe⟩ := exec_hashPayload (i := .hash16b) hlen rfl hm
  exact ⟨m, hexec, hread, hframe, fun h0 => State.payloadBytes_of_len_zero h0 ▸ hread,
    fun hh hp => by rwa [hh, hp, h16ref_example_org] at hread⟩

/-! ### `MKPKEY` (R136) -/

/-- The first half of the pass key of a state: `HA` keyed by `HB` at the same index. -/
theorem byteAt_persistentKey_bytes_low (s : State) {i : Nat} (hi : i < 16) :
    byteAt (persistentKey (s.bytes haRegion) (s.bytes hbRegion)) i =
      if i % 2 = 0 then not8 (s.byte (0x0010 + i) ^^^ s.byte (0x0020 + i))
      else s.byte (0x0010 + i) ^^^ s.byte (0x0020 + i) := by
  rw [byteAt_persistentKey_low _ _ hi, byteMix_eq, s.byteAt_bytes haRegion hi, s.byteAt_bytes hbRegion hi]
  rfl

/-- The second half of the pass key of a state: `HB` keyed by `HA` read in reverse. -/
theorem byteAt_persistentKey_bytes_high (s : State) {i : Nat} (hi : i < 16) :
    byteAt (persistentKey (s.bytes haRegion) (s.bytes hbRegion)) (16 + i) =
      if (15 - i) % 2 = 0 then not8 (s.byte (0x0020 + i) ^^^ s.byte (0x0010 + (15 - i)))
      else s.byte (0x0020 + i) ^^^ s.byte (0x0010 + (15 - i)) := by
  have hrev : 15 - i < haRegion.size := by simp only [haRegion]; omega
  rw [byteAt_persistentKey_high _ _ hi, byteMix_eq, s.byteAt_bytes hbRegion hi, s.byteAt_bytes haRegion hrev]
  rfl

/-- The example of R136. -/
theorem persistentKey_example :
    persistentKey
      [0x08, 0x4E, 0xC2, 0xDC, 0x5C, 0xA2, 0x66, 0xD8, 0xC0, 0x86, 0xCA, 0x54, 0x94, 0x9A, 0xDE, 0x00]
      [0x8D, 0x94, 0x5B, 0x06, 0x49, 0xB0, 0xBF, 0xB2, 0x25, 0xDC, 0x83, 0x9E, 0x71, 0x48, 0x67, 0x1A] =
    [0x7A, 0xDA, 0x66, 0xDA, 0xEA, 0x12, 0x26, 0x6A, 0x1A, 0x5A, 0xB6, 0xCA, 0x1A, 0xD2, 0x46, 0x1A,
     0x8D, 0xB5, 0xC1, 0x6D, 0x1D, 0x85, 0x39, 0x8D, 0xFD, 0x45, 0x21, 0x3D, 0xAD, 0x75, 0x29, 0xED] := by decide

/-- Settles O40: the one store of `MKPKEY` is the pass key, read half by half. -/
theorem mkpkeyMixesBothHashes : Obligations.MkpkeyMixesBothHashes := by
  refine ⟨decode_encode .mkpkey, fun s hm => ?_⟩
  obtain ⟨m, hexec, hread, hframe⟩ := exec_of_single_store (i := .mkpkey) (not_raisesLenRange rfl s) rfl hm
  have hlow := fun i (hi : i < 16) => (hread i (show i < 32 by omega)).trans (byteAt_persistentKey_bytes_low s hi)
  have hhigh := fun i (hi : i < 16) => (hread (16 + i) (show 16 + i < 32 by omega)).trans (byteAt_persistentKey_bytes_high s hi)
  simp only [← Nat.add_assoc] at hhigh
  refine ⟨m, hexec, hlow, hhigh, hframe, fun hzero k hk => ?_, fun hha hhb k hk => ?_⟩
  · obtain ⟨ha, hb⟩ := hzero k hk
    obtain ⟨ha', -⟩ := hzero (15 - k) (by omega)
    have hparity : (15 - k) % 2 = 0 ↔ ¬ k % 2 = 0 := by omega
    refine ⟨(hlow k hk).trans ?_, (hhigh k hk).trans ?_⟩
    · rw [ha, hb]
      rfl
    · rw [hb, ha']
      simp only [hparity, ite_not]
      rfl
  · rw [← persistentKey_example, ← hha, ← hhb]
    exact hread k hk

/-! ### `DERIVE` (R137) -/

/-- The hash of 32 zero bytes, as the example of R137 gives it. -/
theorem h16ref_zeros : hash16 .h16ref (List.replicate 32 0x00) =
    [0x5A, 0xE7, 0xE4, 0x81, 0xCE, 0xFB, 0x98, 0x55, 0xE2, 0xEF, 0x8C, 0x89, 0x16, 0x83, 0xA0, 0x5D] := by decide +kernel

/-- The example of R137: the session key of the all-zero pass key and public key. -/
theorem sessionKey_zeros :
    sessionKey (hash16 .h16ref (List.replicate 32 0x00)) (hash16 .h16ref (List.replicate 32 0x00)) (List.replicate 32 0x00) =
    [0xA5, 0xF8, 0xE7, 0x47, 0x1B, 0x98, 0x81, 0x97, 0x31, 0xB8, 0xFB, 0x77, 0x67, 0x88, 0x55, 0xB7,
     0x1D, 0x48, 0xEF, 0x77, 0x73, 0x88, 0x89, 0x47, 0xE9, 0x68, 0x83, 0x67, 0x5F, 0xB8, 0x5D, 0x07] := by
  rw [h16ref_zeros]
  decide

/-- Settles O41: the one store of `DERIVE` is the session key, read pair by pair. -/
theorem deriveMixesHashesAndPublicKey : Obligations.DeriveMixesHashesAndPublicKey := by
  refine ⟨decode_encode .derive, fun s hm => ?_⟩
  obtain ⟨m, hexec, hread, hframe⟩ := exec_of_single_store (i := .derive) (not_raisesLenRange rfl s) rfl hm
  have hpkey : s.bytes pkeyRegion = s.bytes32 0x0040 := (s.bytes32_eq 0x0040).symm
  have hpub : s.bytes pubRegion = s.bytes32 0x0060 := (s.bytes32_eq 0x0060).symm
  rw [hpkey, hpub] at hread
  refine ⟨m, hexec, fun i hi => ?_, hframe, fun hh hp hq k hk => ?_, h16ref_zeros⟩
  · obtain ⟨heven, hodd⟩ := byteAt_sessionKey (hash16 s.params.hash (s.bytes32 0x0040))
      (hash16 s.params.hash (s.bytes32 0x0060)) (s.bytes32 0x0060) hi
    have hpubByte : byteAt (s.bytes32 0x0060) (2 * i) = s.byte (0x0060 + 2 * i) := byteAt_map_range _ (by omega)
    rw [mixI_eq, hpubByte] at heven
    rw [mixI_eq] at hodd
    exact ⟨(hread (2 * i) (show 2 * i < 32 by omega)).trans heven,
      (hread (2 * i + 1) (show 2 * i + 1 < 32 by omega)).trans hodd⟩
  · rw [hh, hp, hq, sessionKey_zeros] at hread
    exact hread k hk

end Sys2Proof.Machine
end

section
/-! PROOFS of the family 42_table_expansion: the accumulator of `EXPAND` as a function of the XORs of the key pairs, and the command
itself (R150, R151). -/

namespace Sys2Proof.Machine

/-! ### The accumulator (R150) -/

/-- One step of the accumulator, for the XOR of its pair: even adds, odd subtracts the complement. -/
theorem expandAccAt_succ {key : Nat → Byte} {k : Nat} {x : Byte} (hx : key (2 * k) ^^^ key (2 * k + 1) = x) :
    expandAccAt key (k + 1) =
      if (expandAccAt key k).toNat % 2 = 0 then expandAccAt key k + BitVec.ofNat 32 (not8 x).toNat
      else expandAccAt key k - BitVec.ofNat 32 (not8 x).toNat := by
  subst hx
  rfl

/-- R151: the accumulator depends on the key only through the XORs of the pairs it has read. -/
theorem expandAccAt_congr {key key' : Nat → Byte} {n : Nat}
    (h : ∀ k, k < n → key (2 * k) ^^^ key (2 * k + 1) = key' (2 * k) ^^^ key' (2 * k + 1)) :
    expandAccAt key n = expandAccAt key' n := by
  induction n with
  | zero => rfl
  | succ n ih =>
    rw [expandAccAt_succ (h n (by omega)), expandAccAt_succ rfl, ih fun k hk => h k (by omega)]

/-- Equal pairs add and subtract 0xFF in turn. -/
theorem expandAccAt_of_equal_pairs {key : Nat → Byte} {k : Nat}
    (h : ∀ i, i ≤ k → key (2 * i) ^^^ key (2 * i + 1) = 0x00) :
    expandAccAt key (k + 1) = if k % 2 = 0 then 0x000000FF else 0x00000000 := by
  induction k with
  | zero =>
    rw [expandAccAt_succ (h 0 le_rfl)]
    rfl
  | succ k ih =>
    rw [expandAccAt_succ (h (k + 1) le_rfl), ih fun i hi => h i (by omega)]
    rcases Nat.mod_two_eq_zero_or_one k with hk | hk
    · rw [if_pos hk, if_neg (show ¬ (k + 1) % 2 = 0 by omega)]
      rfl
    · rw [if_neg (show ¬ k % 2 = 0 by omega), if_pos (show (k + 1) % 2 = 0 by omega)]
      rfl

/-- Complementary pairs add 0x00 in every step. -/
theorem expandAccAt_of_complementary_pairs {key : Nat → Byte} {n : Nat}
    (h : ∀ k, k < n → key (2 * k) ^^^ key (2 * k + 1) = 0xFF) : expandAccAt key n = 0x00000000 := by
  induction n with
  | zero => rfl
  | succ n ih =>
    rw [expandAccAt_succ (h n (by omega)), ih fun k hk => h k (by omega)]
    rfl

/-- An odd accumulator below the step value wraps below 0. -/
theorem expandAccAt_succ_of_wrap {key : Nat → Byte} {k q : Nat} (hq : q = (not8 (key (2 * k) ^^^ key (2 * k + 1))).toNat)
    (hodd : (expandAccAt key k).toNat % 2 = 1) (hlt : (expandAccAt key k).toNat < q) :
    (expandAccAt key (k + 1)).toNat = 2 ^ 32 + (expandAccAt key k).toNat - q := by
  have hbyte : q < 256 := hq ▸ BitVec.isLt _
  rw [expandAccAt_succ rfl, if_neg (by omega), ← hq, BitVec.toNat_sub, BitVec.toNat_ofNat]
  omega

/-! ### The command (R150) -/

/-- Slice `k` of the expansion of the `SK32` of a state. -/
theorem byteAt_expandSlices_bytes (s : State) {k j : Nat} (hk : k < 16) (hj : j < 16) :
    byteAt (expandSlices s.params.hash 0 (s.bytes sk32Region)) (16 * k + j) =
      byteAt (hash16 s.params.hash (wordBytes (expandAccAt (fun x => s.byte (0x0080 + x)) (k + 1)))) j := by
  have hkey : ∀ i, i < 2 * (k + 1) → byteAt (s.bytes sk32Region) i = s.byte (0x0080 + i) := fun i hi =>
    s.byteAt_bytes sk32Region (show i < 32 by omega)
  rw [byteAt_expandSlices _ _ _ (by rw [State.bytes_length]; show 2 * k + 1 < 32; omega) hj, littleEndianBytes_eq,
    expandAccFrom_eq _ _ _ hkey]

/-- `EXPAND` completes with its slices in `TBL` and zeros in `SK32`, and leaves every byte outside both alone. -/
theorem exec_expand {s : State} (hm : Memory.wf s.mem) : ∃ m,
    exec .expand s = .next (s.completedWith m s.roundState s.tag) ∧
    (∀ k j, k < 16 → j < 16 → Memory.read m (0x0100 + 16 * k + j) =
      byteAt (hash16 s.params.hash (wordBytes (expandAccAt (fun x => s.byte (0x0080 + x)) (k + 1)))) j) ∧
    (∀ x, x < 32 → Memory.read m (0x0080 + x) = 0x00) ∧
    (∀ a, tblRegion.holds a = false → sk32Region.holds a = false → Memory.read m a = s.byte a) := by
  have hlen : (expandSlices s.params.hash 0 (s.bytes sk32Region)).length = 256 :=
    expandSlices_length (k := 16) _ _ _ (s.bytes_length sk32Region)
  have hwf := Memory.writeBlock_wf hm 0x0100 (expandSlices s.params.hash 0 (s.bytes sk32Region))
  refine ⟨_, exec_completedWith (not_raisesLenRange rfl s), fun k j hk hj => ?_, fun x hx => ?_, fun a ht hs => ?_⟩
  · have htable : 0x0100 + 16 * k + j = 0x0100 + (16 * k + j) := Nat.add_assoc _ _ _
    rw [storesOf, storeAll, read_storeAll_outside _ (by decide) (by simp [sk32Region, Region.holds]; omega), htable,
      ← byteAt_expandSlices_bytes s hk hj]
    exact Memory.read_writeBlock_inside hm _ (by omega)
  · exact (Memory.read_writeBlock_inside hwf 0x0080 (show x < (List.replicate 32 0x00).length from hx)).trans
      (byteAt_replicate 32 x)
  · exact read_storeAll_outside s.mem (storesOf_fits .expand s).1 (by simp [storesOf, ht, hs])

/-- The hashes of the example of R150: `LE32(0xFF)` and `LE32(0)`. -/
theorem h16ref_expand_example :
    hash16 .h16ref [0xFF, 0, 0, 0] =
      [0x39, 0x7E, 0x91, 0x12, 0xE1, 0xAE, 0x81, 0x62, 0x89, 0x7E, 0x71, 0xC2, 0x71, 0x5E, 0x21, 0x82] ∧
    hash16 .h16ref [0, 0, 0, 0] =
      [0x14, 0x79, 0x78, 0x13, 0x3C, 0xA5, 0x30, 0x67, 0x34, 0x61, 0x98, 0xAB, 0x8C, 0x4D, 0x00, 0x8F] := by decide

theorem State.byte_of_bytes32_zeros {s : State} {b : Nat} (h : s.bytes32 b = List.replicate 32 0x00) {i : Nat}
    (hi : i < 32) : s.byte (b + i) = 0x00 := by
  have hbyte : byteAt (s.bytes32 b) i = s.byte (b + i) := byteAt_map_range _ hi
  rw [← hbyte, h, byteAt_replicate]

/-- Settles O42: the slices of the one run of `EXPAND`, each corner case by the accumulator it leads to. -/
theorem expandHashesTheRunningAccumulator : Obligations.ExpandHashesTheRunningAccumulator := by
  refine ⟨decode_encode .expand, fun s hm => ?_⟩
  obtain ⟨m, hexec, hslice, hwipe, hframe⟩ := exec_expand hm
  have hequal (h : ∀ k, k < 16 → s.byte (0x0080 + 2 * k) = s.byte (0x0080 + 2 * k + 1)) (k j : Nat) (hk : k < 16)
      (hj : j < 16) :
      expandAccAt (fun x => s.byte (0x0080 + x)) (k + 1) = (if k % 2 = 0 then 0x000000FF else 0x00000000) ∧
      Memory.read m (0x0100 + 16 * k + j) = byteAt (hash16 s.params.hash [if k % 2 = 0 then 0xFF else 0x00, 0, 0, 0]) j := by
    have hacc := expandAccAt_of_equal_pairs (key := fun x => s.byte (0x0080 + x)) (k := k)
      fun i hi => h i (by omega) ▸ BitVec.xor_self
    refine ⟨hacc, ?_⟩
    rw [hslice k j hk hj, hacc]
    split <;> rfl
  refine ⟨m, hexec, hslice, hwipe, hframe, hequal, fun hcompl k j hk hj => ?_, fun k q hk hq n hn hodd hlt => ?_,
    fun hh hzero j hj => ?_⟩
  · have hacc := expandAccAt_of_complementary_pairs (key := fun x => s.byte (0x0080 + x)) (n := k + 1)
      fun i hi => hcompl i (by omega)
    rw [hslice k j hk hj, hacc]
    exact ⟨rfl, rfl⟩
  · subst hn
    exact expandAccAt_succ_of_wrap hq hodd hlt
  · have hpairs : ∀ i, i < 16 → s.byte (0x0080 + 2 * i) = s.byte (0x0080 + 2 * i + 1) := fun i hi =>
      (State.byte_of_bytes32_zeros hzero (show 2 * i < 32 by omega)).trans
        (State.byte_of_bytes32_zeros hzero (show 2 * i + 1 < 32 by omega)).symm
    have hread := fun k hk => (hequal hpairs k j hk hj).2
    obtain ⟨hff, h00⟩ := h16ref_expand_example
    rw [hh] at hread
    have heven : ∀ b, b < 8 → Memory.read m (0x0100 + 32 * b + j) = byteAt (hash16 .h16ref [0xFF, 0, 0, 0]) j := by
      intro b hb
      have := hread (2 * b) (by omega)
      rwa [if_pos (Nat.mul_mod_right 2 b), ← Nat.mul_assoc] at this
    have hodd : ∀ b, b < 8 → Memory.read m (0x0110 + 32 * b + j) = byteAt (hash16 .h16ref [0, 0, 0, 0]) j := by
      intro b hb
      have := hread (2 * b + 1) (by omega)
      rwa [if_neg (by omega), show 0x0100 + 16 * (2 * b + 1) = 0x0110 + 32 * b by omega] at this
    exact ⟨hff ▸ heven 0 (by decide), h00 ▸ hodd 0 (by decide), fun b hb =>
      ⟨(heven b hb).trans (heven 0 (by decide)).symm, (hodd b hb).trans (hodd 0 (by decide)).symm⟩⟩

/-- Settles O43: both runs reach the same accumulators, so they store the same slices. -/
theorem expandDependsOnPairXorsOnly : Obligations.ExpandDependsOnPairXorsOnly := by
  intro s s' t t' hm hm' hh hxor ht ht' a hlo hhi
  obtain ⟨m, hexec, hslice, -⟩ := exec_expand hm
  obtain ⟨m', hexec', hslice', -⟩ := exec_expand hm'
  obtain rfl : s.completedWith m s.roundState s.tag = t := by simpa [hexec] using ht
  obtain rfl : s'.completedWith m' s'.roundState s'.tag = t' := by simpa [hexec'] using ht'
  show Memory.read m a = Memory.read m' a
  obtain ⟨k, j, hk, hj, rfl⟩ : ∃ k j, k < 16 ∧ j < 16 ∧ a = 0x0100 + 16 * k + j :=
    ⟨(a - 0x0100) / 16, (a - 0x0100) % 16, by omega, by omega, by omega⟩
  have hacc : expandAccAt (fun x => s.byte (0x0080 + x)) (k + 1) = expandAccAt (fun x => s'.byte (0x0080 + x)) (k + 1) :=
    expandAccAt_congr fun i hi => hxor i (by omega)
  rw [hslice k j hk hj, hslice' k j hk hj, hh, hacc]

end Sys2Proof.Machine
end

section
/-! PROOFS of the family 43_integrity_checksum: the key sum and the walk sum of `STEPTAG`, and the tag as a function of `LEN`, the payload
bytes and the key bytes (R160, R161). -/

namespace Sys2Proof.Machine

/-! ### The key sum and the walk sum -/

/-- A byte with its low bit set, as every byte that counts in the key sum has, holds 1 to 8 set bits. -/
theorem popcount8_bounds_of_odd {b : Byte} (h : lowBit b = true) : 1 ≤ popcount8 b ∧ popcount8 b ≤ 8 :=
  ⟨List.countP_pos_iff.mpr ⟨0, by decide, h⟩, (popcountOfComplement b).2.1⟩

/-- The byte that counts in the key sum has its low bit set. -/
theorem lowBit_complemented_if_even (b : Byte) : lowBit (if b.toNat % 2 = 0 then not8 b else b) = true := by
  split
  · next heven =>
    have hb : lowBit b = false := by
      rw [← Bool.not_eq_true, lowBit_iff]
      omega
    simpa [lowBit, not8] using hb
  · next hodd => exact (lowBit_iff b).mpr (by omega)

/-- R160: each of the 32 terms is 1 to 8. -/
theorem keySumOf_bounds (key : Nat → Byte) : 32 ≤ keySumOf key ∧ keySumOf key ≤ 256 := by
  have hterm (x : Nat) := popcount8_bounds_of_odd (lowBit_complemented_if_even (key x))
  constructor
  · simpa [keySumOf] using List.card_nsmul_le_sum ((List.range 32).map _) 1
      (List.forall_mem_map.mpr fun x _ => (hterm x).1)
  · simpa [keySumOf] using List.sum_le_card_nsmul ((List.range 32).map _) 8
      (List.forall_mem_map.mpr fun x _ => (hterm x).2)

theorem keySumOf_congr {key key' : Nat → Byte} (h : ∀ x, x < 32 → key x = key' x) : keySumOf key = keySumOf key' := by
  unfold keySumOf
  rw [List.map_congr_left fun x hx => by rw [h x (List.mem_range.mp hx)]]

/-- The walk sum depends on the visited bytes only. -/
theorem walkSum_congr {len stride : Nat} {buf buf' : Nat → Byte}
    (h : ∀ i, i < len → i % stride = 0 → buf i = buf' i) : walkSum len stride buf = walkSum len stride buf' := by
  unfold walkSum
  rw [List.map_congr_left fun i hi => ?_]
  obtain ⟨hlt, hvisited⟩ := List.mem_filter.mp hi
  rw [h i (List.mem_range.mp hlt) (beq_iff_eq.mp hvisited)]

theorem strideOf_pos (len : Nat) (buf key : Nat → Byte) : 0 < strideOf len buf key := Nat.succ_pos _

/-- The stride depends on `BUF[mid]` and on the key only. -/
theorem strideOf_congr {len : Nat} {buf buf' key key' : Nat → Byte} (hmid : 0 < len → buf (len / 2) = buf' (len / 2))
    (hkey : ∀ x, x < 32 → key x = key' x) : strideOf len buf key = strideOf len buf' key' := by
  unfold strideOf
  split
  · rw [hkey 0 (by decide)]
  · next hlen => rw [hmid (by omega), hkey _ (Nat.mod_lt _ (by decide))]

/-! ### The tag -/

/-- The tag of an accumulator and a key sum (R160): an even accumulator adds the key sum, an odd one subtracts it. -/
def tagOfSums (acc ks : Nat) : Byte :=
  not8 (if acc % 2 = 0 then BitVec.ofNat 8 (acc + ks) else BitVec.ofNat 8 (256 + acc - ks % 256))

/-- The tag of a payload `buf` of `len` bytes under a key (R160). -/
def tagOf (len : Nat) (buf key : Nat → Byte) : Byte :=
  tagOfSums (walkSum len (strideOf len buf key) buf % 256) (keySumOf key)

/-- A key sum of 256 has no effect on the tag. -/
theorem tagOfSums_256 (acc : Nat) : tagOfSums acc 256 = not8 (BitVec.ofNat 8 acc) := by
  have hwrap : BitVec.ofNat 8 (acc + 256) = BitVec.ofNat 8 acc := BitVec.eq_of_toNat_eq (by simp)
  rw [tagOfSums, Nat.mod_self, Nat.sub_zero, Nat.add_comm 256 acc, ite_self, hwrap]

/-- The byte accumulator of the model ends in the tag of the sum it stands for. -/
theorem tagOfSums_eq (w ks : Nat) :
    not8 (if lowBit (BitVec.ofNat 8 w) then BitVec.ofNat 8 w - BitVec.ofNat 8 ks
      else BitVec.ofNat 8 w + BitVec.ofNat 8 ks) = tagOfSums (w % 256) ks := by
  have hlow : lowBit (BitVec.ofNat 8 w) = true ↔ ¬ w % 256 % 2 = 0 := by
    rw [lowBit_iff, BitVec.toNat_ofNat]
    omega
  unfold tagOfSums
  simp only [hlow, ite_not]
  congr 1
  split <;> apply BitVec.eq_of_toNat_eq
  · simp only [BitVec.toNat_add, BitVec.toNat_ofNat]
    omega
  · simp only [BitVec.toNat_sub, BitVec.toNat_ofNat]
    omega

/-- The walk over the payload of a state leaves the walk sum in the accumulator. -/
theorem State.tagWalk_payload (s : State) {stride : Nat} (h : 0 < stride) :
    tagWalk s.payload stride s.payload.length 0 0 =
      BitVec.ofNat 8 (walkSum s.len stride fun i => s.byte (0x1000 + i)) := by
  rw [tagWalk_eq _ _ h _ _ _ (Nat.zero_mod _) (Nat.le_add_left _ _), walkSum_eq, s.payload_length,
    Finset.sum_congr rfl fun i hi => by rw [s.byteAt_payload (Finset.mem_range.mp (Finset.mem_filter.mp hi).1)]]
  exact BitVec.zero_add _

/-- `STEPTAG` completes with the tag of the payload under the pass key. -/
theorem exec_steptag {s : State} (h : s.len ≤ s.params.bufSize) :
    exec .steptag s = .next (s.completedWith s.mem s.roundState
      (tagOf s.len (fun i => s.byte (0x1000 + i)) (fun x => s.byte (0x0040 + x)))) := by
  rw [exec_completedWith (valid_of_len_le h .steptag), tagOf, ← tagOfSums_eq, ← keySum_eq,
    ← s.tagWalk_payload (strideOf_pos _ _ _), ← tagStride_eq]
  rfl

/-- R161: the tag depends on the length, the key, `BUF[mid]` and the visited bytes only. -/
theorem tagOf_congr {len : Nat} {buf buf' key key' : Nat → Byte} (hkey : ∀ x, x < 32 → key x = key' x)
    (hmid : 0 < len → buf (len / 2) = buf' (len / 2))
    (hvisited : ∀ i, i < len → i % strideOf len buf key = 0 → buf i = buf' i) : tagOf len buf key = tagOf len buf' key' := by
  rw [tagOf, tagOf, ← strideOf_congr hmid hkey, walkSum_congr hvisited, keySumOf_congr hkey]

/-! ### Corner cases and the example of R160 -/

theorem tagOf_len_zero (buf key : Nat → Byte) : tagOf 0 buf key = not8 (BitVec.ofNat 8 (keySumOf key)) := by
  simp [tagOf, tagOfSums, walkSum]

theorem keySumOf_of_constant_key {key : Nat → Byte}
    (h : (∀ x, x < 32 → key x = 0x00) ∨ (∀ x, x < 32 → key x = 0xFF)) : keySumOf key = 256 := by
  rcases h with h | h
  · exact (keySumOf_congr h).trans (by decide : keySumOf (fun _ => 0x00) = 256)
  · exact (keySumOf_congr h).trans (by decide : keySumOf (fun _ => 0xFF) = 256)

theorem keySumOf_of_counting_key {key : Nat → Byte} (h : ∀ x, x < 32 → key x = BitVec.ofNat 8 x) : keySumOf key = 144 :=
  (keySumOf_congr h).trans (by decide : keySumOf (BitVec.ofNat 8) = 144)

theorem strideOf_example {buf key : Nat → Byte} (hbuf : buf 1 = 0x03) (hkey : key 3 = 0x03) : strideOf 3 buf key = 4 := by
  simp [strideOf, hbuf, hkey]

/-- Three payload bytes under stride 4: the walk visits the first byte only. -/
theorem walkSum_three_four (buf : Nat → Byte) : walkSum 3 4 buf = popcount8 (not8 (buf 0)) := rfl

/-- Settles O44: the one run of `STEPTAG`, with its tag read off for each corner case. -/
theorem steptagSumsTheWalkAndTheKey : Obligations.SteptagSumsTheWalkAndTheKey := by
  refine ⟨decode_encode .steptag, fun s => ?_⟩
  intro buf key acc ks tag
  have htag : tag = tagOfSums acc ks := rfl
  have htagOf : tag = tagOf s.len buf key := rfl
  refine ⟨keySumOf_bounds key, exec_steptag, fun hlen => exec_of_lenRange ⟨rfl, hlen⟩, fun hlen => ?_, fun hlen => ?_,
    fun hconst => ?_, fun hkey hlen hbuf0 hbuf1 _ => ?_⟩
  · rw [htagOf, hlen, tagOf_len_zero]
  · rw [hlen]
    rfl
  · have hks : ks = 256 := keySumOf_of_constant_key hconst
    exact ⟨hks, by rw [htag, hks, tagOfSums_256]⟩
  · have hks : ks = 144 := keySumOf_of_counting_key hkey
    have hstride : strideOf s.len buf key = 4 := hlen ▸ strideOf_example hbuf1 (hkey 3 (by decide))
    have hacc : acc = 8 := by
      show walkSum s.len (strideOf s.len buf key) buf % 256 = 8
      rw [hstride, hlen, walkSum_three_four, hbuf0]
      decide
    exact ⟨hstride, hacc, hks, by rw [htag, hacc, hks]; decide⟩

/-- Settles O45: `STEPTAG` answers `tagOf` in both states, and `tagOf` agrees on them. -/
theorem tagDependsOnVisitedBytesOnly : Obligations.TagDependsOnVisitedBytesOnly := by
  intro s s' t t' hparams hlen hvalid hkey hmid hvisited ht ht'
  obtain rfl : s.completedWith .. = t := by simpa only [exec_steptag hvalid, Host.Outcome.next.injEq] using ht
  obtain rfl : s'.completedWith .. = t' := by
    simpa only [exec_steptag (hparams ▸ hlen ▸ hvalid), Host.Outcome.next.injEq] using ht'
  show tagOf .. = tagOf ..
  rw [← hlen]
  exact tagOf_congr hkey hmid hvisited

end Sys2Proof.Machine
end

section
/-! PROOFS of the family 44_permutation_engine: the rotation patterns and their inverses (R170, R171), the polarity of the
round states (R172), and the commands `MIXTABLE`, `ENCRYPT` and `DECRYPT` with their inverse law and state independence (R173 to R177). -/

namespace Sys2Proof.Machine

/-! ### The rotation patterns (R170, R171) -/

theorem rotl8_of_pos (x : Byte) {k : Nat} (h : 1 ≤ k) : rotl8 x k = (x <<< k) ||| (x >>> (8 - k)) := if_neg (by omega)

theorem rotl8_eq_rotateLeft (x : Byte) {k : Nat} (h : 1 ≤ k) (h' : k ≤ 7) : rotl8 x k = x.rotateLeft k := by
  rw [rotl8_of_pos x h, BitVec.rotateLeft_def, Nat.mod_eq_of_lt (by omega)]

/-- Rotations by counts that add up to 8 undo each other. -/
theorem rotl8_rotl8 (x : Byte) {j k : Nat} (hj : 1 ≤ j) (hk : 1 ≤ k) (h : j + k = 8) : rotl8 (rotl8 x j) k = x := by
  rw [rotl8_eq_rotateLeft x hj (by omega), rotl8_eq_rotateLeft _ hk (by omega)]
  refine BitVec.eq_of_getElem_eq fun i hi => ?_
  rw [BitVec.getElem_rotateLeft]
  split
  · rw [BitVec.getElem_rotateLeft, dif_neg (by omega)]
    congr 1
    omega
  · rw [BitVec.getElem_rotateLeft, dif_pos (by omega)]
    congr 1
    omega

theorem swap2_swap2 (x : Byte) : swap2 (swap2 x) = x := by
  revert x
  decide +kernel

theorem pattern_cases (p : BitVec 3) : p = 0 ∨ p = 1 ∨ p = 2 ∨ p = 3 ∨ p = 4 ∨ p = 5 ∨ p = 6 ∨ p = 7 := by
  revert p
  decide

theorem unrotDefault_rotDefault (p : BitVec 3) (x : Byte) : unrotDefault p (rotDefault p x) = x := by
  rcases pattern_cases p with rfl | rfl | rfl | rfl | rfl | rfl | rfl | rfl
  case inl => rfl
  case inr.inl =>
    show rotl8 (swap2 (swap2 (rotl8 x 2))) 6 = x
    rw [swap2_swap2, rotl8_rotl8 x (by decide) (by decide) rfl]
  all_goals exact rotl8_rotl8 x (by decide) (by decide) rfl

theorem rotDefault_unrotDefault (p : BitVec 3) (y : Byte) : rotDefault p (unrotDefault p y) = y := by
  rcases pattern_cases p with rfl | rfl | rfl | rfl | rfl | rfl | rfl | rfl
  case inl => rfl
  case inr.inl =>
    show swap2 (rotl8 (rotl8 (swap2 y) 6) 2) = y
    rw [rotl8_rotl8 (swap2 y) (by decide) (by decide) rfl, swap2_swap2]
  all_goals exact rotl8_rotl8 y (by decide) (by decide) rfl

/-- R171, for the fixed patterns, the defaults, and every other choice of the parameters. -/
theorem unrot_rot (r : RotParam) (p : BitVec 3) (x : Byte) : unrot r p (rot r p x) = x := by
  unfold unrot rot
  split
  · rfl
  · split
    · exact rotl8_rotl8 x (by decide) (by decide) rfl
    · cases r with
      | defaults => exact unrotDefault_rotDefault p x
      | opened n => exact Equiv.symm_apply_apply _ x

theorem rot_unrot (r : RotParam) (p : BitVec 3) (y : Byte) : rot r p (unrot r p y) = y := by
  unfold unrot rot
  split
  · rfl
  · split
    · exact rotl8_rotl8 y (by decide) (by decide) rfl
    · cases r with
      | defaults => exact rotDefault_unrotDefault p y
      | opened n => exact Equiv.apply_symm_apply _ y

theorem rot_bijective (r : RotParam) (p : BitVec 3) : Function.Bijective (rot r p) :=
  Function.bijective_iff_has_inverse.mpr ⟨unrot r p, unrot_rot r p, rot_unrot r p⟩

theorem pattern_toNat (s : Byte) : (pattern s).toNat = s.toNat % 8 := by
  rw [pattern, BitVec.extractLsb'_toNat, Nat.shiftRight_zero]

/-- Settles O34: a pattern is a bijection because it has an inverse; the tables are the definitions. -/
theorem rotationPatterns : Obligations.RotationPatterns := fun r x =>
  ⟨rfl, fun _ h _ => rotl8_of_pos x h, pattern_toNat x, rfl, rfl, rfl, rot_bijective r, rfl, rfl, rfl, rfl, rfl, rfl⟩

/-- Settles O35: both compositions are the identity, and the table of the default inverses is the definition. -/
theorem unrotInvertsRot : Obligations.UnrotInvertsRot :=
  ⟨fun r p x => ⟨unrot_rot r p x, rot_unrot r p x⟩, fun _ => ⟨rfl, rfl, rfl, rfl, rfl, rfl, rfl, rfl⟩⟩

/-! ### The round states -/

theorem mixStateAt_congr {seed : Byte} {tbl tbl' : Nat → Byte} {n : Nat} (h : ∀ i, i < n → tbl i = tbl' i) :
    mixStateAt seed tbl n = mixStateAt seed tbl' n := by
  rw [mixStateAt_eq, mixStateAt_eq, stateSeq_congr _ _ h]

theorem payloadStateAt_congr {seed : Byte} {tbl tbl' : Nat → Byte} (h : ∀ i, i < 256 → tbl i = tbl' i) (n : Nat) :
    payloadStateAt seed tbl n = payloadStateAt seed tbl' n := by
  rw [payloadStateAt_eq, payloadStateAt_eq, stateSeq_congr _ _ fun i _ => h (i % 256) (Nat.mod_lt i (by decide))]

theorem State.roundStateAfter_mixtable (s : State) :
    roundStateAfter .mixtable s = mixStateAt s.roundState (fun i => s.byte (0x0100 + i)) 256 :=
  (mixPass_state _ _ _ _ _).trans (by rw [State.bytes_length]; exact s.mixStates (Nat.le_refl 256))

theorem State.roundStateAfter_encrypt (s : State) :
    roundStateAfter .encrypt s = payloadStateAt s.roundState (fun i => s.byte (0x0100 + i)) s.len :=
  (encryptPass_state _ _ _ _ _).trans (by rw [State.payload_length, State.payloadStates])

theorem State.roundStateAfter_decrypt (s : State) :
    roundStateAfter .decrypt s = payloadStateAt s.roundState (fun i => s.byte (0x0100 + i)) s.len :=
  (decryptPass_state _ _ _ _ _).trans (by rw [State.payload_length, State.payloadStates])

/-- Settles O51: both commands end in the same function of `STATE`, `TBL` and `LEN`. -/
theorem payloadStatesDoNotDependOnTheBuffer : Obligations.PayloadStatesDoNotDependOnTheBuffer := by
  intro s s' hlen hlen' hl hrs htbl
  have hstates : roundStateAfter .encrypt s = roundStateAfter .decrypt s' := by
    rw [s.roundStateAfter_encrypt, s'.roundStateAfter_decrypt, hl, hrs, payloadStateAt_congr htbl]
  exact ⟨_, _, exec_completedWith (valid_of_len_le hlen .encrypt), exec_completedWith (valid_of_len_le hlen' .decrypt),
    hstates, s.roundStateAfter_encrypt⟩

/-! ### Polarity (R172) -/

theorem lowBit_not8 (u : Byte) : lowBit (not8 u) = !lowBit u := by simp [lowBit, not8]

/-- `MIXTABLE` complements a state that is even. -/
theorem lowBit_mixStep (s t : Byte) : lowBit (mixStep s t) = true := by
  unfold mixStep
  dsimp only
  split
  · assumption
  · next h => rw [lowBit_not8, Bool.eq_false_of_not_eq_true h, Bool.not_false]

/-- `ENCRYPT` and `DECRYPT` complement a state that is odd. -/
theorem lowBit_payloadStep (s t : Byte) : lowBit (payloadStep s t) = false := by
  unfold payloadStep
  dsimp only
  split
  · next h => rw [lowBit_not8, h, Bool.not_true]
  · next h => exact Bool.eq_false_of_not_eq_true h

section
variable {r r' : RotParam}

theorem mixPass_congr_rot (h : ∀ p : BitVec 3, p.getLsbD 0 = true → ∀ x, rot r p x = rot r' p x) (pub : List Byte)
    (i : Nat) (s : Byte) (table : List Byte) : mixPass r pub i s table = mixPass r' pub i s table := by
  induction table generalizing i s with
  | nil => rfl
  | cons t rest ih => rw [mixPass, mixPass, ih, h _ ((pattern_low _).trans (lowBit_mixStep s t))]

theorem encryptPass_congr_rot (h : ∀ p : BitVec 3, p.getLsbD 0 = false → ∀ x, rot r p x = rot r' p x) (table : List Byte)
    (i : Nat) (s : Byte) (buf : List Byte) : encryptPass r table i s buf = encryptPass r' table i s buf := by
  induction buf generalizing i s with
  | nil => rfl
  | cons b rest ih => rw [encryptPass, encryptPass, ih, h _ ((pattern_low _).trans (lowBit_payloadStep s _))]

theorem decryptPass_congr_rot (h : ∀ p : BitVec 3, p.getLsbD 0 = false → ∀ x, unrot r p x = unrot r' p x)
    (table : List Byte) (i : Nat) (s : Byte) (buf : List Byte) :
    decryptPass r table i s buf = decryptPass r' table i s buf := by
  induction buf generalizing i s with
  | nil => rfl
  | cons b rest ih => rw [decryptPass, decryptPass, ih, h _ ((pattern_low _).trans (lowBit_payloadStep s _))]

end

/-- The state under another choice of the rotation patterns. -/
def State.withRot (s : State) (r : RotParam) : State := { s with params := { s.params with rot := r } }

/-- A command whose stores and round state do not change with the patterns leaves the same memory and `STATE`, whether or not it
passes validation. -/
theorem exec_withRot {i : Instr} {s : State} {r : RotParam} (hstores : storesOf i (s.withRot r) = storesOf i s)
    (hstate : roundStateAfter i (s.withRot r) = roundStateAfter i s) :
    ∃ t t', exec i s = .next t ∧ exec i (s.withRot r) = .next t' ∧ t'.mem = t.mem ∧ t'.roundState = t.roundState := by
  by_cases hv : raisesLenRange i s
  · exact ⟨_, _, exec_of_lenRange hv, exec_of_lenRange (s := s.withRot r) hv, rfl, rfl⟩
  · exact ⟨_, _, exec_completedWith hv, exec_completedWith (s := s.withRot r) hv,
      congrArg (storeAll s.mem) hstores, hstate⟩

/-- Settles O49: each pass uses the patterns of one parity, so it does not see the others replaced. -/
theorem polarityFixesThePatternsUsed : Obligations.PolarityFixesThePatternsUsed := by
  refine ⟨fun seed tbl i => ⟨?_, ?_⟩, fun s r h => ?_, fun s r h => ?_, fun s r h => ?_⟩
  · rw [mixStateAt_eq]
    exact lowBit_mixStep _ _
  · rw [payloadStateAt_eq]
    exact lowBit_payloadStep _ _
  · have hpass := mixPass_congr_rot h (s.bytes pubRegion) 0 s.roundState (s.bytes tblRegion)
    exact exec_withRot (i := .mixtable) (congrArg (fun out : List Byte × Byte => [(tblRegion, out.1)]) hpass)
      (congrArg Prod.snd hpass)
  · have hpass := encryptPass_congr_rot h (s.bytes tblRegion) 0 s.roundState s.payload
    exact exec_withRot (i := .encrypt) (congrArg (fun out : List Byte × Byte => [(s.payloadRegion, out.1)]) hpass)
      (congrArg Prod.snd hpass)
  · have hpass := decryptPass_congr_rot h (s.bytes tblRegion) 0 s.roundState s.payload
    exact exec_withRot (i := .decrypt) (congrArg (fun out : List Byte × Byte => [(s.payloadRegion, out.1)]) hpass)
      (congrArg Prod.snd hpass)

/-! ### The table of the examples (R173, R174) -/

/-- The table of the examples: entry `i` is `(7i + 3) mod 256`. -/
def exampleTable (i : Nat) : Byte := BitVec.ofNat 8 (7 * i + 3)

theorem mixStateAt_exampleTable : mixStateAt 0x13 exampleTable 256 = 0x13 := by decide +kernel

/-- The first entries that `MIXTABLE` makes in its example, from the public key `(0x11 * x + 7) mod 256`. -/
theorem mixtable_example : ∀ i, i < 8 →
    rot .defaults ((mixStateAt 0x13 exampleTable (i + 1) &&& 7).setWidth 3)
      (if i % 2 = 0 then not8 (exampleTable i ^^^ BitVec.ofNat 8 (0x11 * (i % 32) + 7))
        else exampleTable i ^^^ BitVec.ofNat 8 (0x11 * (i % 32) + 7)) =
    byteAt [0xDF, 0x84, 0x7C, 0x22, 0xBA, 0x9E, 0xFD, 0xA4] i := by decide +kernel

theorem payloadStateAt_exampleTable : ∀ i, i < 4 →
    payloadStateAt 0x5A exampleTable (i + 1) = byteAt [0xA6, 0xAC, 0x42, 0x5A] i := by decide

theorem encrypt_example : ∀ i, i < 4 →
    rot .defaults ((payloadStateAt 0x5A exampleTable (i + 1) &&& 7).setWidth 3)
      (if i % 256 % 2 = 0 then not8 (byteAt [0x00, 0x11, 0x22, 0x33] i ^^^ exampleTable (i % 256))
        else byteAt [0x00, 0x11, 0x22, 0x33] i ^^^ exampleTable (i % 256)) =
    byteAt [0x7E, 0x63, 0x99, 0x56] i := by decide

theorem decrypt_example : ∀ i, i < 4 →
    (let x := unrot .defaults ((payloadStateAt 0x5A exampleTable (i + 1) &&& 7).setWidth 3) (byteAt [0x7E, 0x63, 0x99, 0x56] i)
     if i % 256 % 2 = 0 then not8 (x ^^^ exampleTable (i % 256)) else x ^^^ exampleTable (i % 256)) =
    byteAt [0x00, 0x11, 0x22, 0x33] i := by decide

/-! ### `MIXTABLE` (R173) -/

/-- Entry `i` that `MIXTABLE` makes: `i mod 32` has the parity of `i`. -/
theorem State.byteAt_mixPass_bytes (s : State) {i : Nat} (hi : i < 256) :
    byteAt (mixPass s.params.rot (s.bytes pubRegion) 0 s.roundState (s.bytes tblRegion)).1 i =
      rot s.params.rot ((mixStateAt s.roundState (fun i => s.byte (0x0100 + i)) (i + 1) &&& 7).setWidth 3)
        (if i % 2 = 0 then not8 (s.byte (0x0100 + i) ^^^ s.byte (0x0060 + i % 32))
          else s.byte (0x0100 + i) ^^^ s.byte (0x0060 + i % 32)) := by
  have hpub : byteAt (s.bytes pubRegion) (i % 32) = s.byte (0x0060 + i % 32) :=
    s.byteAt_bytes pubRegion (Nat.mod_lt i (by decide))
  rw [byteAt_mixPass _ _ _ _ _ (by rw [State.bytes_length]; exact hi), s.mixStates hi, pattern_eq, byteMix_eq,
    Nat.zero_add, s.byteAt_table hi, hpub, Nat.mod_mod_of_dvd i (by decide : 2 ∣ 32)]

/-- Settles O46: the one store of `MIXTABLE` is the table, entry by entry, and the example is computed. -/
theorem mixtableRewritesEveryEntry : Obligations.MixtableRewritesEveryEntry := by
  refine ⟨decode_encode .mixtable, fun s hm => ?_⟩
  obtain ⟨m, hexec, hread, hframe⟩ := exec_of_single_store (i := .mixtable) (not_raisesLenRange rfl s) rfl hm
  rw [s.roundStateAfter_mixtable] at hexec
  have hentry : ∀ i, i < 256 → Memory.read m (0x0100 + i) = _ := fun i hi =>
    (hread i hi).trans (s.byteAt_mixPass_bytes hi)
  refine ⟨m, hexec, hentry, hframe, fun hrot (htbl : ∀ i, i < 256 → s.byte (0x0100 + i) = exampleTable i)
    (hpub : ∀ x, x < 32 → s.byte (0x0060 + x) = BitVec.ofNat 8 (0x11 * x + 7)) hseed => ⟨fun i hi => ?_, ?_⟩⟩
  · rw [hentry i (by omega), mixStateAt_congr fun j hj => htbl j (by omega), hrot, hseed,
      htbl i (by omega), hpub _ (Nat.mod_lt i (by decide))]
    exact mixtable_example i hi
  · rw [mixStateAt_congr htbl, hseed]
    exact mixStateAt_exampleTable

/-! ### `ENCRYPT` and `DECRYPT` (R174, R175) -/

theorem State.byteAt_encryptPass_payload (s : State) {i : Nat} (hi : i < s.len) :
    byteAt (encryptPass s.params.rot (s.bytes tblRegion) 0 s.roundState s.payload).1 i =
      rot s.params.rot ((payloadStateAt s.roundState (fun i => s.byte (0x0100 + i)) (i + 1) &&& 7).setWidth 3)
        (if i % 256 % 2 = 0 then not8 (s.byte (0x1000 + i) ^^^ s.byte (0x0100 + i % 256))
          else s.byte (0x1000 + i) ^^^ s.byte (0x0100 + i % 256)) := by
  rw [byteAt_encryptPass _ _ _ _ _ (by rwa [State.payload_length]), s.payloadStates, pattern_eq, byteMix_eq,
    Nat.zero_add, s.byteAt_table (Nat.mod_lt i (by decide)), s.byteAt_payload hi]

theorem State.byteAt_decryptPass_payload (s : State) {i : Nat} (hi : i < s.len) :
    byteAt (decryptPass s.params.rot (s.bytes tblRegion) 0 s.roundState s.payload).1 i =
      (let x := unrot s.params.rot
        ((payloadStateAt s.roundState (fun i => s.byte (0x0100 + i)) (i + 1) &&& 7).setWidth 3) (s.byte (0x1000 + i))
       if i % 256 % 2 = 0 then not8 (x ^^^ s.byte (0x0100 + i % 256)) else x ^^^ s.byte (0x0100 + i % 256)) := by
  rw [byteAt_decryptPass _ _ _ _ _ (by rwa [State.payload_length]), s.payloadStates, pattern_eq, byteMix_eq,
    Nat.zero_add, s.byteAt_table (Nat.mod_lt i (by decide)), s.byteAt_payload hi]

/-- A command keeps the canonical form of the memory, whether or not it passes validation. -/
theorem exec_wf {i : Instr} {s t : State} (hm : Memory.wf s.mem) (h : exec i s = .next t) : Memory.wf t.mem := by
  rw [exec_eq, Host.Outcome.next.injEq] at h
  subst h
  split
  · exact hm
  · exact effectOf_wf i hm

theorem payloadStateAt_of_len_zero {s : State} (h : s.len = 0) (tbl : Nat → Byte) :
    payloadStateAt s.roundState tbl s.len = s.roundState := by
  rw [h, payloadStateAt]

/-- A command that stores a list over the payload and ends in the payload state, for a `LEN` that passes validation. With `LEN` = 0
its frame is the whole memory. -/
theorem exec_payload_pass {i : Instr} {s : State} {out : List Byte} (hlen : s.len ≤ s.params.bufSize)
    (hs : storesOf i s = [(s.payloadRegion, out)])
    (hrs : roundStateAfter i s = payloadStateAt s.roundState (fun i => s.byte (0x0100 + i)) s.len) (hm : Memory.wf s.mem) :
    ∃ m, exec i s =
        .next (s.completedWith m (payloadStateAt s.roundState (fun i => s.byte (0x0100 + i)) s.len) (tagAfter i s)) ∧
      (∀ k, k < s.len → Memory.read m (0x1000 + k) = byteAt out k) ∧ s.agreesOutside m s.payloadRegion ∧
      (s.len = 0 → m = s.mem ∧ payloadStateAt s.roundState (fun i => s.byte (0x0100 + i)) s.len = s.roundState) := by
  obtain ⟨m, hexec, hread, hframe⟩ := exec_of_single_store (valid_of_len_le hlen i) hs hm
  refine ⟨m, hrs ▸ hexec, hread, hframe, fun h0 => ⟨?_, payloadStateAt_of_len_zero h0 _⟩⟩
  refine Memory.ext_read (exec_wf hm hexec) hm fun k => hframe k ?_
  rw [← Bool.not_eq_true, Region.holds_iff, State.payloadRegion, h0]
  show ¬(0x1000 ≤ k ∧ k < 0x1000 + 0)
  omega

/-- The state of the examples of R174 and R175 with payload `buf`: its length, its bytes and its round states. -/
theorem State.payload_example {s : State} {buf : List Byte} (hbuf : s.payloadBytes = buf)
    (htbl : ∀ i, i < 256 → s.byte (0x0100 + i) = exampleTable i) (hseed : s.roundState = 0x5A) :
    s.len = buf.length ∧ (∀ i, i < buf.length → s.byte (0x1000 + i) = byteAt buf i) ∧
    ∀ n, payloadStateAt s.roundState (fun i => s.byte (0x0100 + i)) n = payloadStateAt 0x5A exampleTable n := by
  have hl : s.len = buf.length := by rw [← hbuf, ← s.payload_eq, State.payload_length]
  refine ⟨hl, fun i hi => ?_, hseed ▸ payloadStateAt_congr htbl⟩
  rw [← hbuf, ← s.payload_eq, s.byteAt_payload (hl ▸ hi)]

/-- Settles O47: the one store of `ENCRYPT` is the ciphertext, byte by byte. -/
theorem encryptTransformsThePayload : Obligations.EncryptTransformsThePayload := by
  refine ⟨decode_encode .encrypt, fun s hm => ⟨fun hlen => ?_, fun hlen => exec_of_lenRange ⟨rfl, hlen⟩⟩⟩
  obtain ⟨m, hexec, hread, hframe, hzero⟩ := exec_payload_pass (i := .encrypt) hlen rfl s.roundStateAfter_encrypt hm
  have hbyte : ∀ i, i < s.len → Memory.read m (0x1000 + i) = _ := fun i hi =>
    (hread i hi).trans (s.byteAt_encryptPass_payload hi)
  refine ⟨m, hexec, hbyte, hframe, hzero,
    fun hrot (htbl : ∀ i, i < 256 → s.byte (0x0100 + i) = exampleTable i) hseed hbuf => ?_⟩
  obtain ⟨hl, hpayload, hstates⟩ := State.payload_example hbuf htbl hseed
  simp only [hstates, hl]
  refine ⟨fun i hi => ⟨?_, payloadStateAt_exampleTable i hi⟩, payloadStateAt_exampleTable 3 (by decide)⟩
  rw [hbyte i (hl ▸ hi), hstates, hrot, hpayload i hi, htbl _ (Nat.mod_lt i (by decide))]
  exact encrypt_example i hi

/-- Settles O48: the one store of `DECRYPT` is the plaintext, byte by byte. -/
theorem decryptTransformsThePayload : Obligations.DecryptTransformsThePayload := by
  refine ⟨decode_encode .decrypt, fun s hm => ⟨fun hlen => ?_, fun hlen => exec_of_lenRange ⟨rfl, hlen⟩⟩⟩
  obtain ⟨m, hexec, hread, hframe, hzero⟩ := exec_payload_pass (i := .decrypt) hlen rfl s.roundStateAfter_decrypt hm
  have hbyte : ∀ i, i < s.len → Memory.read m (0x1000 + i) = _ := fun i hi =>
    (hread i hi).trans (s.byteAt_decryptPass_payload hi)
  refine ⟨m, hexec, hbyte, hframe, hzero,
    fun hrot (htbl : ∀ i, i < 256 → s.byte (0x0100 + i) = exampleTable i) hseed hbuf => ?_⟩
  obtain ⟨hl, hpayload, hstates⟩ := State.payload_example hbuf htbl hseed
  simp only [hstates, hl]
  refine ⟨fun i hi => ?_, payloadStateAt_exampleTable 3 (by decide)⟩
  rw [hbyte i (hl ▸ hi), hstates, hrot, hpayload i hi, htbl _ (Nat.mod_lt i (by decide))]
  exact decrypt_example i hi

/-! ### The inverse law (R176) -/

/-- Byte by byte, under the same states, `UNROT` undoes `ROT` and `byteMix` undoes itself. -/
theorem decryptPass_encryptPass (r : RotParam) (table : List Byte) (i : Nat) (s : Byte) (buf : List Byte) :
    decryptPass r table i s (encryptPass r table i s buf).1 = (buf, (encryptPass r table i s buf).2) := by
  induction buf generalizing i s with
  | nil => rfl
  | cons b rest ih =>
    simp only [encryptPass, decryptPass, ih, unrot_rot, byteMix_involutive table (i % 256) b]

/-- Storing over a block and then storing its first content back restores the memory. -/
theorem Memory.writeBlock_restore {m : List Host.Cell} (h : Memory.wf m) (k : Nat) {n : Nat} {bs : List Byte}
    (hl : bs.length = n) : Memory.writeBlock (Memory.writeBlock m k bs) k (Memory.readBlock m k n) = m := by
  have hw := Memory.writeBlock_wf h k bs
  refine Memory.ext_read (Memory.writeBlock_wf hw k _) h fun j => ?_
  by_cases hj : k ≤ j ∧ j < k + n
  · obtain ⟨i, rfl⟩ := Nat.exists_eq_add_of_le hj.1
    have hi : i < n := by omega
    rw [Memory.read_writeBlock_inside hw k (by rwa [Memory.readBlock_length]), Memory.byteAt_readBlock m k hi]
  · rw [Memory.read_writeBlock_outside _ _ (by rw [Memory.readBlock_length]; omega),
      Memory.read_writeBlock_outside _ _ (by omega)]

/-- The pass of `DECRYPT` from a state that holds what `ENCRYPT` stored, with the first `STATE` put back: it reads the same table,
which lies below the payload. -/
theorem decryptPass_after_encrypt {s v : State} (hm : Memory.wf s.mem) (hrot : v.params.rot = s.params.rot)
    (hlen : v.len = s.len) (hrs : v.roundState = s.roundState) (hmem : v.mem = (effectOf .encrypt s).mem) :
    decryptPass v.params.rot (v.bytes tblRegion) 0 v.roundState v.payload = (s.payload, roundStateAfter .encrypt s) := by
  have hl := (storesOf_fits .encrypt s).1 _ List.mem_cons_self
  have htable : v.bytes tblRegion = s.bytes tblRegion := by
    rw [State.bytes, hmem]
    exact s.bytes_setBytes_disjoint s.payloadRegion tblRegion hl (.inl (show 0x0100 + 256 ≤ 0x1000 by decide))
  have hpayload : v.payload = (encryptPass s.params.rot (s.bytes tblRegion) 0 s.roundState s.payload).1 := by
    rw [State.payload, State.payloadRegion, hlen, State.bytes, hmem]
    exact State.bytes_setBytes_same hm s.payloadRegion hl
  rw [hrot, htable, hrs, hpayload, decryptPass_encryptPass]
  rfl

/-- Settles O50: the pass of `DECRYPT` gives the first payload back, and storing it restores the memory. -/
theorem decryptInvertsEncrypt : Obligations.DecryptInvertsEncrypt := by
  intro s hm hlen
  let v : State := { (effectOf .encrypt s).complete with roundState := s.roundState }
  have hpass := decryptPass_after_encrypt (v := v) hm rfl rfl rfl rfl
  have hvalid : ¬ raisesLenRange .decrypt v := valid_of_len_le (s := v) hlen .decrypt
  refine ⟨_, _, exec_of_valid (valid_of_len_le hlen .encrypt), exec_completedWith hvalid, ?_, ?_⟩
  · show Memory.writeBlock (effectOf .encrypt s).mem 0x1000
      (decryptPass v.params.rot (v.bytes tblRegion) 0 v.roundState v.payload).1 = s.mem
    rw [hpass, effectOf_mem]
    exact Memory.writeBlock_restore hm 0x1000 ((storesOf_fits .encrypt s).1 _ List.mem_cons_self)
  · exact (congrArg Prod.snd hpass).trans (effectOf_roundState_tag .encrypt s).1.symm

end Sys2Proof.Machine
end

section
/-! PROOFS of the family 60_exceptions: what a step can do to `ERRCODE` (R190, R193, R198), and the commands that raise `LEN_RANGE`
(R192). -/

namespace Sys2Proof.Machine

/-! ### No step stops the machine (R193, R198) -/

/-- The codes of R190. -/
theorem CmdError.code_cases (e : CmdError) : e.code = 1 ∨ e.code = 2 := by
  cases e with
  | illegalCmd => exact .inl rfl
  | lenRange => exact .inr rfl

/-- A write to the window raises no error: it keeps `ERRCODE`, or clears it by an issue, by the flag in `STATUS`, or by a reset. -/
theorem State.windowWrite_errcode (s : State) (a : Addr) (v : Byte) :
    (s.windowWrite a v).status.errcode = s.status.errcode ∨ (s.windowWrite a v).status.errcode = 0 := by
  unfold State.windowWrite
  cases placeOf s.params.bufSize a with
  | id | ver | reserved | roundState | tag | lenLo | lenHi | storage => exact .inl rfl
  | cmd => exact .inr rfl
  | status => exact (ite_eq_or_eq (v.getLsbD 2 = true) 0 s.status.errcode).symm
  | ctrl =>
    cases h : v.getLsbD 1 with
    | false => exact .inl (by rw [State.writePlace, s.writeCtrl_of_not_srst h])
    | true => exact .inr (by rw [State.writePlace, s.writeCtrl_of_srst h, State.afterReset_status])

/-- The host cannot raise an error (R193): its accesses keep `ERRCODE` or clear it. -/
theorem HostResult.errcode {s t : State} (h : HostResult s t) :
    t.status.errcode = s.status.errcode ∨ t.status.errcode = 0 := by
  cases h with
  | waits | reads | polls | idles => exact .inl rfl
  | writes a v rest => exact State.windowWrite_errcode { s with bus := rest } a v

/-- A command keeps `ERRCODE`, or completes with the code of one of the two errors. -/
theorem RunResult.errcode {c : Byte} {s t : State} (h : RunResult c s t) :
    t.status.errcode = s.status.errcode ∨ t.status.errcode = 1 ∨ t.status.errcode = 2 := by
  cases h with
  | error e => exact .inr e.code_cases
  | effect i => exact .inl (by simp [effectOf_fields])

theorem CycleResult.errcode {s t : State} (h : CycleResult s t) :
    t.status.errcode = s.status.errcode ∨ t.status.errcode = 0 ∨ t.status.errcode = 1 ∨ t.status.errcode = 2 := by
  cases h with
  | idle _ ht => exact ht.errcode.imp_right .inl
  | count _ _ _ ht => exact ht.errcode.imp_right .inl
  | run _ _ ht => exact ht.errcode.imp_right .inr

/-- Settles O7: a step answers a reset, which clears `ERRCODE`, or an engine cycle. -/
theorem stepAlwaysAnswersANextState : Obligations.StepAlwaysAnswersANextState := by
  intro s
  obtain ⟨t, hstep, hres⟩ := step_result s
  refine ⟨t, hstep, ?_⟩
  cases hres with
  | reset levels => exact .inr (.inl rfl)
  | cycle levels ht => exact ht.errcode

/-! ### `LEN_RANGE` (R192) -/

/-- The commands of R192, which validation step 2 of R111 checks. -/
theorem readsLen_iff_mem (i : Instr) : readsLen i = true ↔ i ∈ [.hash16a, .hash16b, .steptag, .encrypt, .decrypt] := by
  cases i <;> decide

/-- The commands that validation step 2 of R111 passes over. -/
theorem not_readsLen_iff_mem (i : Instr) : readsLen i = false ↔ i ∈ [.nop, .mkpkey, .derive, .expand, .mixtable] := by
  cases i <;> decide

/-- Settles O17: a command that reads `LEN` fails the check of R111, and any other has no check to fail. -/
theorem lenRangeExactlyForTheCommandsThatReadLen : Obligations.LenRangeExactlyForTheCommandsThatReadLen := by
  refine ⟨fun i s hi hlen => exec_of_lenRange ⟨(readsLen_iff_mem i).mpr hi, hlen⟩, fun i s hi => ?_⟩
  have hv := not_raisesLenRange ((not_readsLen_iff_mem i).mpr hi) s
  exact ⟨_, exec_completedWith hv, rfl⟩

end Sys2Proof.Machine
end

section
/-! PROOFS of the family 70_reset_and_hazards: the reset input and the soft reset (R220, R221), the bound on a command's run (R241), the
frame (R232), payloads split between two commands (R239), and the encode and decode sequences (R234, R235). -/

namespace Sys2Proof.Machine

/-! ### The reset input (R220) -/

/-- Settles O10: the step is the reset action, and after the release the engine is idle, so the host's next access performs. -/
theorem hardwareResetAbortsAndRestores : Obligations.HardwareResetAbortsAndRestores := by
  intro s levels h
  exact ⟨step_of_reset h, rfl, rfl, rfl, fun op rest hq hlevels => step_idle hlevels rfl hq⟩

/-! ### The soft reset (R221) -/

/-- The host's soft reset, with no level of the reset input pending. -/
theorem State.performHostOp_softReset {s : State} {v : Byte} (hr : s.resetIn = []) (hv : v.getLsbD 1 = true)
    (rest : List HostOp) :
    s.performHostOp (.write 0x0004 v) rest = { State.reset with params := s.params, bus := rest, replies := s.replies } := by
  rw [State.performHostOp, State.windowWrite_ctrl, State.writeCtrl_of_srst _ hv, State.afterReset, hr]
  rfl

/-- A write to `CTRL` is an exempt access (R78). -/
theorem exempt_write_ctrl (n : Nat) (v : Byte) : HostOp.exempt n (.write 0x0004 v) = true := rfl

/-- Settles O11: the write performs in the next step because the engine is idle, or because it is an exempt access. -/
theorem softResetByCtrlWrite : Obligations.SoftResetByCtrlWrite := by
  refine fun s v rest => ⟨?_, fun hq hr hv hflight => ?_⟩
  · rw [State.windowWrite_ctrl]
    rfl
  · rcases hflight with hidle | ⟨c, n, hbusy⟩
    · rw [step_idle hr hidle hq, State.performHostOp_softReset hr hv]
    · rw [step_exempt hbusy hr hq (exempt_write_ctrl _ v), State.performHostOp_softReset (by exact hr) hv]

/-- Settles O56: the command completes with the host's fields as they were, and the idle engine then lets the reset through. -/
theorem softResetInTheLastCycle : Obligations.SoftResetInTheLastCycle := by
  intro s c v rest hf hr hq hv
  obtain ⟨u, hu, hres⟩ := runCommand_result c s
  obtain ⟨hparams, -, -, -, -, hidle, hbus, hreset, hreplies, -⟩ := hres.fields
  refine ⟨u, (step_run hr hf).trans hu, hu, hbus, ?_⟩
  rw [step_idle (hreset.trans hr) hidle (hbus.trans hq), State.performHostOp_softReset (hreset.trans hr) hv, hparams, hreplies]

/-! ### The bound on a command's run (R241) -/

/-- A step with a command in flight ends its flight, or takes one cycle off what is left. -/
theorem step_flight {s : State} {c : Byte} {n : Nat} (hf : s.flight = some { byte := c, left := n }) :
    ∃ t, step s = .next t ∧ (t.flight = none ∨ ∃ m, n = m + 1 ∧ t.flight = some { byte := c, left := m }) := by
  obtain ⟨t, hstep, hres⟩ := step_result s
  refine ⟨t, hstep, ?_⟩
  cases hres with
  | reset => exact .inl rfl
  | cycle levels ht =>
    cases ht with
    | idle hidle => exact absurd (hf.symm.trans hidle) (by simp)
    | run _ _ hrun =>
      obtain ⟨-, -, -, -, -, hnone, -⟩ := hrun.fields
      exact .inl hnone
    | count d m hcount hhost =>
      obtain ⟨rfl, rfl⟩ : c = d ∧ n = m + 1 := by simpa using hf.symm.trans hcount
      exact (hhost.flight rfl).symm.imp_right fun h => ⟨m, rfl, h⟩

/-- Settles O20, by induction on the cycles left. -/
theorem commandsEndWithinTheirLatency : Obligations.CommandsEndWithinTheirLatency := by
  intro s c n hf
  induction n using Nat.strong_induction_on generalizing s with
  | _ n ih =>
    obtain ⟨t, hstep, hidle | ⟨m, rfl, hcount⟩⟩ := step_flight hf
    · exact ⟨1, t, Nat.le_add_left 1 n, (core_run_one s).trans hstep, t.busy_eq_false_iff.mpr hidle⟩
    · obtain ⟨k, u, hk, hrun, hbusy⟩ := ih m (Nat.lt_succ_self m) t hcount
      exact ⟨k + 1, u, Nat.succ_le_succ hk, (core_run_succ k s t hstep).trans hrun, hbusy⟩

/-! ### The frame (R232) -/

/-- The recovery of a 7-bit tag undoes its obfuscation, whatever the random byte. -/
theorem recoverTag_obfuscateTag (r tag : Byte) : recoverTag r (obfuscateTag (tag &&& 0x7F) r) = tag &&& 0x7F := by
  have hmask : tag &&& 0x7F &&& 0x7F = tag &&& 0x7F := by rw [BitVec.and_assoc, BitVec.and_self]
  have hundo : not8 (not8 (tag &&& 0x7F ^^^ r) ^^^ r) = tag &&& 0x7F := by
    simp only [not8, ← BitVec.not_xor_left, BitVec.not_not, BitVec.xor_assoc, BitVec.xor_self, BitVec.xor_zero]
  rw [recoverTag, obfuscateTag, hundo, hmask]

section
variable {pub : List Byte} (hpub : pub.length = 32) (r tag7 : Byte) (cipher : List Byte)
include hpub

theorem buildFrame_length : (buildFrame r tag7 pub cipher).length = 34 + cipher.length := by
  simp only [buildFrame, List.length_append, List.length_cons, List.length_nil, hpub]

theorem take_drop_buildFrame : ((buildFrame r tag7 pub cipher).drop 2).take 32 = pub := List.take_left' hpub

theorem drop_buildFrame : (buildFrame r tag7 pub cipher).drop 34 = cipher := List.drop_left' (l₁ := pub) hpub

end

/-- Settles O54: each part of the frame read back by the formula of the decoder. -/
theorem frameParsesBack : Obligations.FrameParsesBack := by
  intro r tag pub cipher hpub
  have hlen := buildFrame_length hpub r (tag &&& 0x7F) cipher
  have htag := recoverTag_obfuscateTag r tag
  have hkey := take_drop_buildFrame hpub r (tag &&& 0x7F) cipher
  have hcipher := drop_buildFrame hpub r (tag &&& 0x7F) cipher
  refine ⟨⟨hlen, rfl, rfl, htag, hkey, hcipher⟩, fun hne => ?_, fun hnil => if_pos ?_⟩
  · have hlong : ¬ (buildFrame r (tag &&& 0x7F) pub cipher).length ≤ 34 := by
      have := List.length_pos_of_ne_nil hne
      omega
    rw [parseFrame, if_neg hlong, hkey, hcipher]
    exact congrArg (fun t => Except.ok (FrameParts.mk t pub cipher)) htag
  · rw [hlen, hnil, List.length_nil]

/-! ### The state after a command -/

/-- The state a command leaves when it passes validation. -/
def State.afterCommand (s : State) (i : Instr) : State := (effectOf i s).complete

theorem exec_afterCommand {i : Instr} {s : State} (h : ¬ raisesLenRange i s) : exec i s = .next (s.afterCommand i) :=
  exec_of_valid h

@[simp] theorem State.afterCommand_params (s : State) (i : Instr) : (s.afterCommand i).params = s.params :=
  (effectOf_fields i s).1

@[simp] theorem State.afterCommand_len (s : State) (i : Instr) : (s.afterCommand i).len = s.len := by
  obtain ⟨-, -, -, -, hlo, hhi, -⟩ := effectOf_fields i s
  rw [State.len, State.len, State.afterCommand, State.complete_lenLo, State.complete_lenHi, hlo, hhi]

theorem State.afterCommand_roundState (s : State) (i : Instr) : (s.afterCommand i).roundState = roundStateAfter i s :=
  (effectOf_roundState_tag i s).1

theorem State.afterCommand_tag (s : State) (i : Instr) : (s.afterCommand i).tag = tagAfter i s :=
  (effectOf_roundState_tag i s).2

theorem State.afterCommand_wf {s : State} (hm : Memory.wf s.mem) (i : Instr) : Memory.wf (s.afterCommand i).mem :=
  effectOf_wf i hm

/-- A command leaves a region alone that lies apart from the regions it writes. -/
theorem State.bytes_afterCommand_apart {s : State} {i : Instr} {r : Region}
    (h : ∀ w ∈ writeRegions i s.len, r.base + r.size ≤ w.base ∨ w.base + w.size ≤ r.base) :
    (s.afterCommand i).bytes r = s.bytes r := by
  refine State.bytes_congr fun k hk => effectOf_byte_outside fun w hw => ?_
  have hapart := h w hw
  rw [Region.holds_iff] at hk
  rw [← Bool.not_eq_true, Region.holds_iff]
  omega

/-- The one region a command stores into holds what it stored there. -/
theorem State.bytes_afterCommand_stored {s : State} (hm : Memory.wf s.mem) {i : Instr} {r : Region} {bs : List Byte}
    (hs : storesOf i s = [(r, bs)]) : (s.afterCommand i).bytes r = bs := by
  have hl := (storesOf_fits i s).1 (r, bs) (by simp [hs])
  rw [State.afterCommand, State.complete_bytes, State.bytes, effectOf_mem, hs]
  exact State.bytes_setBytes_same hm r hl

theorem State.payload_afterCommand_stored {s : State} (hm : Memory.wf s.mem) {i : Instr} {bs : List Byte}
    (hs : storesOf i s = [(s.payloadRegion, bs)]) : (s.afterCommand i).payload = bs := by
  rw [State.payload, State.payloadRegion, State.afterCommand_len]
  exact State.bytes_afterCommand_stored hm hs

/-! ### Payloads split between two commands (R239) -/

/-- The table with which a pass tells index 0 from every other index: the two entries are neither equal nor complements. -/
def splitTable : List Byte := (List.range 256).map fun i => if i = 0 then 0x00 else 0x02

theorem splitTable_length : splitTable.length = 256 := by rw [splitTable, List.length_map, List.length_range]

theorem byteAt_splitTable {i : Nat} (hi : i < 256) : byteAt splitTable i = if i = 0 then 0x00 else 0x02 :=
  byteAt_map_range _ hi

theorem payloadStep_zero_ne_two : ∀ s : Byte, payloadStep s 0x00 ≠ payloadStep s 0x02 := by decide +kernel

/-- A pass that goes on at the index where its first part ended, looks at its index modulo 256 and evolves the payload state can
be started anew after exactly the first parts whose length is a multiple of 256: after any other, one more byte already leads to
another state under `splitTable`. -/
theorem split_iff {pass : List Byte → Nat → Byte → List Byte → List Byte × Byte}
    (happend : ∀ t i s p q, pass t i s (p ++ q) =
      ((pass t i s p).1 ++ (pass t (i + p.length) (pass t i s p).2 q).1, (pass t (i + p.length) (pass t i s p).2 q).2))
    (hindex : ∀ t i j s p, i % 256 = j % 256 → pass t i s p = pass t j s p)
    (hstate : ∀ t i s b, (pass t i s [b]).2 = payloadStep s (byteAt t (i % 256))) (p1 : List Byte) :
    (∀ (tbl : List Byte) (s : Byte) (p2 : List Byte), tbl.length = 256 →
      pass tbl 0 s (p1 ++ p2) =
        ((pass tbl 0 s p1).1 ++ (pass tbl 0 (pass tbl 0 s p1).2 p2).1, (pass tbl 0 (pass tbl 0 s p1).2 p2).2)) ↔
      p1.length % 256 = 0 := by
  constructor
  · intro h
    by_contra hne
    have hsecond := congrArg Prod.snd (h splitTable 0x00 [0x00] splitTable_length)
    rw [happend, Nat.zero_add, hstate, hstate, byteAt_splitTable (Nat.mod_lt _ (by decide)), if_neg hne,
      byteAt_splitTable (by decide), if_pos (Nat.zero_mod 256)] at hsecond
    exact payloadStep_zero_ne_two _ hsecond.symm
  · intro hmul tbl s p2 _
    rw [happend, Nat.zero_add, hindex tbl p1.length 0 _ p2 hmul]

/-- A command that stores the first part of `out` over the payload and leaves the second in `STATE`. -/
theorem exec_payload_out {i : Instr} {s : State} {out : List Byte × Byte} (hm : Memory.wf s.mem)
    (hlen : s.len ≤ s.params.bufSize) (hs : storesOf i s = [(s.payloadRegion, out.1)]) (hrs : roundStateAfter i s = out.2) :
    ∃ t, exec i s = .next t ∧ (t.payloadBytes, t.roundState) = out := by
  refine ⟨_, exec_afterCommand (valid_of_len_le hlen i), Prod.ext ?_ ((s.afterCommand_roundState i).trans hrs)⟩
  rw [← State.payload_eq]
  exact State.payload_afterCommand_stored hm hs

/-- Settles O52: both passes are such passes, and the two commands store what they make. -/
theorem splitAtMultiplesOf256 : Obligations.SplitAtMultiplesOf256 := by
  refine ⟨fun r p1 => ⟨?_, ?_⟩, fun s hm hlen => ?_, fun s hm hlen => ?_⟩
  · exact split_iff (encryptPass_append r) (fun t i j s p h => encryptPass_congr_index r t h s p) (fun t i s b => rfl) p1
  · exact split_iff (decryptPass_append r) (fun t i j s p h => decryptPass_congr_index r t h s p) (fun t i s b => rfl) p1
  · rw [← s.payload_eq]
    exact exec_payload_out (i := .encrypt) hm hlen rfl rfl
  · rw [← s.payload_eq]
    exact exec_payload_out (i := .decrypt) hm hlen rfl rfl

/-! ### The encode and decode sequences (R234, R235) -/

/-- The table that `DERIVE` and `EXPAND` make of a pass key and a public key. -/
def sessionTable (h : HashParam) (pkey pub : List Byte) : List Byte :=
  expandSlices h 0 (sessionKey (hash16 h pkey) (hash16 h pub) pub)

/-- The state after `DERIVE` and `EXPAND`. -/
def State.withSessionTable (s : State) : State := (s.afterCommand .derive).afterCommand .expand

/-- The state after the host wrote `seed` to `STATE` and issued `MIXTABLE`. -/
def State.mixedFrom (s : State) (seed : Byte) : State := (s.setRoundState seed).afterCommand .mixtable

/-- What the commands between the keys and the payload leave alone: in `t` the parameters, `LEN`, the keys and the payload are
those of `s`, and the memory is canonical. -/
structure KeepsInputs (s t : State) : Prop where
  wf : Memory.wf t.mem
  params : t.params = s.params
  len : t.len = s.len
  pkey : t.bytes pkeyRegion = s.bytes pkeyRegion
  pub : t.bytes pubRegion = s.bytes pubRegion
  payload : t.payload = s.payload

theorem KeepsInputs.trans {s t u : State} (h : KeepsInputs s t) (h' : KeepsInputs t u) : KeepsInputs s u :=
  ⟨h'.wf, h'.params.trans h.params, h'.len.trans h.len, h'.pkey.trans h.pkey, h'.pub.trans h.pub,
    h'.payload.trans h.payload⟩

/-- These commands write between the keys and the payload, if at all. -/
theorem keepsInputs_afterCommand {s : State} (hm : Memory.wf s.mem) {i : Instr}
    (hi : i ∈ [.derive, .expand, .steptag, .mixtable]) : KeepsInputs s (s.afterCommand i) := by
  have hbetween : ∀ w ∈ writeRegions i s.len, 0x0080 ≤ w.base ∧ w.base + w.size ≤ 0x1000 := by
    simp only [List.mem_cons, List.not_mem_nil, or_false] at hi
    rcases hi with rfl | rfl | rfl | rfl <;> simp [writeRegions, sk32Region, tblRegion]
  refine ⟨State.afterCommand_wf hm i, s.afterCommand_params i, s.afterCommand_len i, ?_, ?_, ?_⟩
  · exact State.bytes_afterCommand_apart fun w hw => .inl (Nat.le_trans (by decide) (hbetween w hw).1)
  · exact State.bytes_afterCommand_apart fun w hw => .inl (hbetween w hw).1
  · rw [State.payload, State.payloadRegion, State.afterCommand_len]
    exact State.bytes_afterCommand_apart fun w hw => .inr (hbetween w hw).2

theorem keepsInputs_withSessionTable {s : State} (hm : Memory.wf s.mem) : KeepsInputs s s.withSessionTable :=
  have hderive := keepsInputs_afterCommand hm (i := .derive) (by decide)
  hderive.trans (keepsInputs_afterCommand hderive.wf (by decide))

theorem keepsInputs_mixedFrom {s : State} (hm : Memory.wf s.mem) (seed : Byte) : KeepsInputs s (s.mixedFrom seed) :=
  have hseed : KeepsInputs s (s.setRoundState seed) := ⟨hm, rfl, rfl, rfl, rfl, rfl⟩
  hseed.trans (keepsInputs_afterCommand hseed.wf (by decide))

/-- `EXPAND` stores its slices and then wipes `SK32`, which lies apart from `TBL`. -/
theorem State.table_after_expand {s : State} (hm : Memory.wf s.mem) :
    (s.afterCommand .expand).bytes tblRegion = expandSlices s.params.hash 0 (s.bytes sk32Region) := by
  have hslices : (expandSlices s.params.hash 0 (s.bytes sk32Region)).length = tblRegion.size :=
    expandSlices_length (k := 16) _ _ _ (s.bytes_length sk32Region)
  have hzeros : (List.replicate 32 (0x00 : Byte)).length = sk32Region.size := List.length_replicate
  rw [State.afterCommand, State.complete_bytes, effectOf, State.expandTable,
    State.bytes_setBytes_disjoint _ sk32Region tblRegion hzeros (by decide), State.bytes_setBytes_same hm tblRegion hslices]

theorem State.table_withSessionTable {s : State} (hm : Memory.wf s.mem) :
    s.withSessionTable.bytes tblRegion = sessionTable s.params.hash (s.bytes pkeyRegion) (s.bytes pubRegion) := by
  have hsk32 := State.bytes_afterCommand_stored hm (i := .derive) rfl
  rw [State.withSessionTable, State.table_after_expand (State.afterCommand_wf hm _), hsk32, State.afterCommand_params,
    sessionTable]

/-- `MIXTABLE` from a seed leaves its pass over the table, whatever `STATE` held before. -/
theorem State.table_mixedFrom {s : State} (hm : Memory.wf s.mem) (seed : Byte) :
    ((s.mixedFrom seed).bytes tblRegion, (s.mixedFrom seed).roundState) =
      mixPass s.params.rot (s.bytes pubRegion) 0 seed (s.bytes tblRegion) := by
  have hstored : (s.mixedFrom seed).bytes tblRegion = _ :=
    State.bytes_afterCommand_stored (s := s.setRoundState seed) hm (i := .mixtable) rfl
  rw [hstored, State.mixedFrom, State.afterCommand_roundState, roundStateAfter, State.setRoundState_params,
    State.setRoundState_bytes, State.setRoundState_bytes, State.setRoundState_roundState]

/-- `STEPTAG` writes the tag of the pass key and the payload, and no byte memory. -/
theorem State.tag_after_steptag (s : State) :
    (s.afterCommand .steptag).tag = stepTag (s.bytes pkeyRegion) s.payload := s.afterCommand_tag .steptag

/-- `DECRYPT` on a block with the table and the round state of another undoes the `ENCRYPT` of that block (R176). -/
theorem decrypt_undoes_encrypt {s v : State} (hs : Memory.wf s.mem) (hv : Memory.wf v.mem)
    (hrot : v.params.rot = s.params.rot) (htable : v.bytes tblRegion = s.bytes tblRegion)
    (hstate : v.roundState = s.roundState) (hpayload : v.payload = (s.afterCommand .encrypt).payload) :
    (v.afterCommand .decrypt).payload = s.payload ∧
    (v.afterCommand .decrypt).roundState = (s.afterCommand .encrypt).roundState := by
  have hpass : decryptPass v.params.rot (v.bytes tblRegion) 0 v.roundState v.payload =
      (s.payload, (s.afterCommand .encrypt).roundState) := by
    rw [hrot, htable, hstate, hpayload, State.payload_afterCommand_stored hs rfl, decryptPass_encryptPass,
      State.afterCommand_roundState, roundStateAfter]
  refine ⟨?_, ?_⟩
  · rw [State.payload_afterCommand_stored hv rfl, hpass]
  · rw [State.afterCommand_roundState, roundStateAfter, hpass]

/-- A state that keeps the inputs of `s` and holds their session table: what `MIXTABLE` from a seed leaves there is a function of
the parameters, the keys and the seed. -/
theorem KeepsInputs.table_mixedFrom {s t : State} (h : KeepsInputs s t)
    (htable : t.bytes tblRegion = sessionTable s.params.hash (s.bytes pkeyRegion) (s.bytes pubRegion)) (seed : Byte) :
    ((t.mixedFrom seed).bytes tblRegion, (t.mixedFrom seed).roundState) =
      mixPass s.params.rot (s.bytes pubRegion) 0 seed
        (sessionTable s.params.hash (s.bytes pkeyRegion) (s.bytes pubRegion)) := by
  rw [State.table_mixedFrom h.wf, h.params, h.pub, htable]

/-- `STEPTAG` leaves the table alone. -/
theorem State.table_after_steptag (s : State) : (s.afterCommand .steptag).bytes tblRegion = s.bytes tblRegion :=
  State.bytes_afterCommand_apart fun _ hw => absurd hw List.not_mem_nil

section
variable {s : State} {bs : List Byte} (hl : bs.length = s.len)
include hl

/-- The host's write over the payload, read back. -/
theorem State.payload_setPayload (hm : Memory.wf s.mem) : (s.setBytes (bufRegion s.len) bs).payload = bs :=
  State.bytes_setBytes_same hm s.payloadRegion hl

/-- The host's write over the payload leaves the keys and the table alone, which lie below it. -/
theorem State.bytes_setPayload_below {r : Region} (hr : r.base + r.size ≤ 0x1000) :
    (s.setBytes (bufRegion s.len) bs).bytes r = s.bytes r := State.bytes_setBytes_disjoint s _ r hl (.inl hr)

end

/-- `DECRYPT` leaves the pass key alone. -/
theorem State.pkey_after_decrypt (s : State) : (s.afterCommand .decrypt).bytes pkeyRegion = s.bytes pkeyRegion :=
  State.bytes_afterCommand_apart fun w hw => .inl (by rw [List.mem_singleton.mp hw]; show 0x0040 + 32 ≤ 0x1000; decide)

theorem exec_withSessionTable (s : State) :
    exec .derive s = .next (s.afterCommand .derive) ∧ exec .expand (s.afterCommand .derive) = .next s.withSessionTable :=
  ⟨exec_afterCommand (not_raisesLenRange rfl s), exec_afterCommand (not_raisesLenRange rfl _)⟩

theorem exec_mixedFrom (s : State) (seed : Byte) : exec .mixtable (s.setRoundState seed) = .next (s.mixedFrom seed) :=
  exec_afterCommand (not_raisesLenRange rfl _)

/-- Two blocks that are ready for a pass with the same length, pass key, table and round state. -/
structure ReadyAlike (s d : State) : Prop where
  encodeWf : Memory.wf s.mem
  decodeWf : Memory.wf d.mem
  valid : d.len ≤ d.params.bufSize
  len : d.len = s.len
  rot : d.params.rot = s.params.rot
  pkey : d.bytes pkeyRegion = s.bytes pkeyRegion
  table : d.bytes tblRegion = s.bytes tblRegion
  roundState : d.roundState = s.roundState

/-- The end of the decode sequence (R235): the ciphertext of the first block goes into `BUF` of the second, which decrypts it and
takes its tag. -/
theorem ReadyAlike.decrypt_steptag {s d : State} (h : ReadyAlike s d) :
    ∃ t u, exec .decrypt (d.setBytes (bufRegion d.len) (s.afterCommand .encrypt).payloadBytes) = .next t ∧
      exec .steptag t = .next u ∧ u.payload = s.payload ∧ u.tag = stepTag (s.bytes pkeyRegion) s.payload ∧
      u.roundState = (s.afterCommand .encrypt).roundState := by
  rw [← State.payload_eq]
  have hl : (s.afterCommand .encrypt).payload.length = d.len := by rw [State.payload_length, State.afterCommand_len, h.len]
  generalize hw : d.setBytes (bufRegion d.len) (s.afterCommand .encrypt).payload = w
  have hwm : Memory.wf w.mem := hw ▸ Memory.writeBlock_wf h.decodeWf _ _
  have hvalid : w.len ≤ w.params.bufSize := hw ▸ h.valid
  have hbelow : ∀ r : Region, r.base + r.size ≤ 0x1000 → w.bytes r = d.bytes r := fun r hr =>
    hw ▸ State.bytes_setPayload_below hl hr
  obtain ⟨hpayload, hround⟩ := decrypt_undoes_encrypt h.encodeWf hwm (hw ▸ h.rot) ((hbelow _ (by decide)).trans h.table)
    (hw ▸ h.roundState) (hw ▸ State.payload_setPayload hl h.decodeWf)
  have hkeep := keepsInputs_afterCommand (State.afterCommand_wf hwm .decrypt) (i := .steptag) (by decide)
  have hvalid' : (w.afterCommand .decrypt).len ≤ (w.afterCommand .decrypt).params.bufSize := by simpa using hvalid
  refine ⟨_, _, exec_afterCommand (valid_of_len_le hvalid _), exec_afterCommand (valid_of_len_le hvalid' _), ?_, ?_, ?_⟩
  · rw [hkeep.payload, hpayload]
  · rw [State.tag_after_steptag, hpayload, State.pkey_after_decrypt, hbelow _ (by decide), h.pkey]
  · exact (State.afterCommand_roundState _ _).trans hround

/-- The state of the encode sequence after its `STEPTAG` (R234): the inputs are kept, the table is the session table, and `TAG` holds
the tag of the payload. -/
theorem encode_steptag {s : State} (hm : Memory.wf s.mem) (hvalid : s.len ≤ s.params.bufSize) :
    ∃ t, exec .steptag s.withSessionTable = .next t ∧ KeepsInputs s t ∧
      t.bytes tblRegion = sessionTable s.params.hash (s.bytes pkeyRegion) (s.bytes pubRegion) ∧
      t.tag = stepTag (s.bytes pkeyRegion) s.payload := by
  have hkeep := keepsInputs_withSessionTable hm
  refine ⟨_, exec_afterCommand (valid_of_len_le (by rwa [hkeep.len, hkeep.params]) _),
    hkeep.trans (keepsInputs_afterCommand hkeep.wf (by decide)), ?_, ?_⟩
  · rw [State.table_after_steptag, State.table_withSessionTable hm]
  · rw [State.tag_after_steptag, hkeep.pkey, hkeep.payload]

/-- Settles O55: the two blocks reach the same table and round state, from which `DECRYPT` undoes `ENCRYPT`. -/
theorem decodeSequenceRecoversThePayload : Obligations.DecodeSequenceRecoversThePayload := by
  intro s d hsm hdm hvalid hbuf hhash hrot hlen (hpkey : d.bytes32 pkeyRegion.base = s.bytes32 pkeyRegion.base)
    (hpub : d.bytes32 pubRegion.base = s.bytes32 pubRegion.base)
  replace hpkey : d.bytes pkeyRegion = s.bytes pkeyRegion := by rwa [State.bytes32_eq, State.bytes32_eq] at hpkey
  replace hpub : d.bytes pubRegion = s.bytes pubRegion := by rwa [State.bytes32_eq, State.bytes32_eq] at hpub
  obtain ⟨hs1, hs2⟩ := exec_withSessionTable s
  obtain ⟨hd1, hd2⟩ := exec_withSessionTable d
  obtain ⟨s3, hs3, ks3, htable, htag⟩ := encode_steptag hsm hvalid
  have kd2 := keepsInputs_withSessionTable hdm
  have ks4 := ks3.trans (keepsInputs_mixedFrom ks3.wf (s3.tag &&& 0x7F))
  have kd3 := kd2.trans (keepsInputs_mixedFrom kd2.wf (s3.tag &&& 0x7F))
  have hs4 := exec_mixedFrom s3 (s3.tag &&& 0x7F)
  have hd3 := exec_mixedFrom d.withSessionTable (s3.tag &&& 0x7F)
  have hmixed := kd2.table_mixedFrom (State.table_withSessionTable hdm) (s3.tag &&& 0x7F)
  rw [hhash, hrot, hpkey, hpub, ← ks3.table_mixedFrom htable, Prod.mk.injEq] at hmixed
  obtain ⟨hsameTable, hsameState⟩ := hmixed
  generalize s3.mixedFrom (s3.tag &&& 0x7F) = s4 at *
  generalize d.withSessionTable.mixedFrom (s3.tag &&& 0x7F) = d3 at *
  have hready : ReadyAlike s4 d3 :=
    { encodeWf := ks4.wf
      decodeWf := kd3.wf
      valid := by rwa [kd3.len, kd3.params, hlen, hbuf]
      len := by rw [kd3.len, ks4.len, hlen]
      rot := by rw [kd3.params, ks4.params, hrot]
      pkey := by rw [kd3.pkey, ks4.pkey, hpkey]
      table := hsameTable
      roundState := hsameState }
  have hs5 := exec_afterCommand (i := .encrypt) (valid_of_len_le (s := s4) (by rwa [ks4.len, ks4.params]) _)
  obtain ⟨d4, d5, hd4, hd5, hpayload, htag', hround⟩ := hready.decrypt_steptag
  refine ⟨_, _, s3, s4, _, _, _, d3, d4, d5, ⟨hs1, hs2, hs3, hs4, hs5⟩, ⟨hd1, hd2, hd3, hd4, hd5⟩, ?_, ?_, hround⟩
  · rw [← State.payload_eq, ← State.payload_eq, hpayload, ks4.payload]
  · rw [htag', htag, ks4.pkey, ks4.payload]

end Sys2Proof.Machine
end
